-- ==== Sys2Proof/Word.lean ====
section
/-! DEFINITION. The word, byte and register-name types (00_scope.md R7, R10; 10_state.md R21). -/

namespace Sys2Proof

/-- A WORD: every register, memory cell, address and instruction is one (R10). Its `+` wraps modulo 2^16 and its
`&&&` and `~~~` are the bitwise operations of R10. -/
abbrev Word := BitVec 16

/-- A character of the console port: 8 bits (R42, R43; the width is the spec's decision D6). -/
abbrev Byte := BitVec 8

/-- The eight general registers (R21). -/
inductive Reg where
  | r0 | r1 | r2 | r3 | r4 | r5 | r6 | r7
deriving DecidableEq, Repr

end Sys2Proof
end

