-- ==== Sys2Proof/Syntax.lean ====
section
/-! DEFINITION. The instructions: one constructor per row of spec/opcode_table.json (30_encoding.md R80, R85). -/

namespace Sys2Proof

/-- An instruction with its operands as the decoder of R85 answers them: an immediate or offset is already the
sign-extended 16-bit value. Ignored bits (R82) are no operands. -/
inductive Instr where
  /-- BR: `nzp` is IR[11:9], n the most significant bit (R110). -/
  | br (nzp : BitVec 3) (off : Word)
  /-- ADD, register form (R102). -/
  | addReg (dr sr1 sr2 : Reg)
  /-- ADD, immediate form (R102). -/
  | addImm (dr sr1 : Reg) (imm : Word)
  /-- LD (R120). -/
  | ld (dr : Reg) (off : Word)
  /-- ST (R124). -/
  | st (sr : Reg) (off : Word)
  /-- JSR (R112). -/
  | jsr (off : Word)
  /-- JSRR (R113). -/
  | jsrr (base : Reg)
  /-- AND, register form (R103). -/
  | andReg (dr sr1 sr2 : Reg)
  /-- AND, immediate form (R103). -/
  | andImm (dr sr1 : Reg) (imm : Word)
  /-- LDR (R122). -/
  | ldr (dr base : Reg) (off : Word)
  /-- STR (R126). -/
  | str (sr base : Reg) (off : Word)
  /-- RTI, a no-op (R161). -/
  | rti
  /-- NOT (R104). -/
  | not (dr sr : Reg)
  /-- LDI (R121). -/
  | ldi (dr : Reg) (off : Word)
  /-- STI (R125). -/
  | sti (sr : Reg) (off : Word)
  /-- JMP; RET is JMP R7 (R111, R87). -/
  | jmp (base : Reg)
  /-- RES, a no-op (R160). -/
  | res
  /-- LEA (R123). -/
  | lea (dr : Reg) (off : Word)
  /-- TRAP; the services' names are spellings of it (R140, R87). -/
  | trap (vect : BitVec 8)
deriving DecidableEq, Repr

end Sys2Proof
end

