-- ==== Sys2Proof/WellFormed.lean ====
section
/-! DEFINITION. Which instructions have an encoding: each immediate and offset in the range its field reaches
(30_encoding.md R74 to R77). Registers, the mask and the vector are bounded by their types (R78, R79). -/

namespace Sys2Proof

/-- `v`, read as two's complement, is in `lo .. hi`. -/
def inRange (lo hi : Int) (v : Word) : Bool := decide (lo ≤ v.toInt) && decide (v.toInt ≤ hi)

/-- imm5 is in -16..15 (R74). -/
def isImm5 (v : Word) : Bool := inRange (-16) 15 v

/-- offset6 is in -32..31 (R75). -/
def isOffset6 (v : Word) : Bool := inRange (-32) 31 v

/-- PCoffset9 is in -256..255 (R76). -/
def isPCoffset9 (v : Word) : Bool := inRange (-256) 255 v

/-- PCoffset11 is in -1024..1023 (R77). -/
def isPCoffset11 (v : Word) : Bool := inRange (-1024) 1023 v

/-- An instruction some word encodes. -/
def Instr.wellFormed : Instr → Bool
  | .br _ off => isPCoffset9 off
  | .addReg _ _ _ => true
  | .addImm _ _ imm => isImm5 imm
  | .ld _ off => isPCoffset9 off
  | .st _ off => isPCoffset9 off
  | .jsr off => isPCoffset11 off
  | .jsrr _ => true
  | .andReg _ _ _ => true
  | .andImm _ _ imm => isImm5 imm
  | .ldr _ _ off => isOffset6 off
  | .str _ _ off => isOffset6 off
  | .rti => true
  | .not _ _ => true
  | .ldi _ off => isPCoffset9 off
  | .sti _ off => isPCoffset9 off
  | .jmp _ => true
  | .res => true
  | .lea _ off => isPCoffset9 off
  | .trap _ => true

end Sys2Proof
end

