-- ==== Sys2Proof/Decode.lean ====
section
/-! DEFINITION. The decoder, a total function on words (30_encoding.md R34, R85), and after it the encoder.
Opcode numbers and field positions are the spec's general knowledge K5 to K7, decision D20 (log 17). No word is
illegal (R83), so there is nothing for the decoder to reject. -/

namespace Sys2Proof

/-! ### Fields and sign extension -/

/-- `field w lo n`: the `n` bits of `w` from bit `lo` up (R9). -/
def field (w : Word) (lo n : Nat) : BitVec n := w.extractLsb' lo n

/-- `sext_N` (R11): bit N-1 is copied into every higher bit. -/
def sext {n : Nat} (v : BitVec n) : Word := v.signExtend 16

/-- The register a 3-bit selector names (R79). -/
def Reg.ofBits (b : BitVec 3) : Reg :=
  match b.toFin with
  | 0 => .r0
  | 1 => .r1
  | 2 => .r2
  | 3 => .r3
  | 4 => .r4
  | 5 => .r5
  | 6 => .r6
  | 7 => .r7

/-- The 3-bit selector of a register (R79). -/
def Reg.bits : Reg → BitVec 3
  | .r0 => 0
  | .r1 => 1
  | .r2 => 2
  | .r3 => 3
  | .r4 => 4
  | .r5 => 5
  | .r6 => 6
  | .r7 => 7

/-- The register whose selector starts at bit `lo`. -/
def regField (w : Word) (lo : Nat) : Reg := Reg.ofBits (field w lo 3)

/-! ### The opcode map -/

/-- The sixteen opcode tags (R80). -/
inductive Opcode where
  | br | add | ld | st | jsr | and | ldr | str | rti | not | ldi | sti | jmp | res | lea | trap
deriving DecidableEq, Repr

/-- The number of an opcode in IR[15:12]: the map of R80. -/
def Opcode.number : Opcode → BitVec 4
  | .br => 0x0
  | .add => 0x1
  | .ld => 0x2
  | .st => 0x3
  | .jsr => 0x4
  | .and => 0x5
  | .ldr => 0x6
  | .str => 0x7
  | .rti => 0x8
  | .not => 0x9
  | .ldi => 0xA
  | .sti => 0xB
  | .jmp => 0xC
  | .res => 0xD
  | .lea => 0xE
  | .trap => 0xF

/-- The opcode of a number: the map of R80 read the other way. The last line is reached by 0xF alone
(`Opcode.number_ofBits` in Laws/Decode.lean: this is the inverse of `Opcode.number`). -/
def Opcode.ofBits (b : BitVec 4) : Opcode :=
  match b.toNat with
  | 0x0 => .br
  | 0x1 => .add
  | 0x2 => .ld
  | 0x3 => .st
  | 0x4 => .jsr
  | 0x5 => .and
  | 0x6 => .ldr
  | 0x7 => .str
  | 0x8 => .rti
  | 0x9 => .not
  | 0xA => .ldi
  | 0xB => .sti
  | 0xC => .jmp
  | 0xD => .res
  | 0xE => .lea
  | _ => .trap

/-! ### The decoder -/

/-- `decode(IR)` of R85: opcode IR[15:12] (R71), with IR[5] choosing the immediate form of ADD and AND and IR[11]
choosing JSR (R81). Bits of no field are never read (R82). -/
def decode (w : Word) : Instr :=
  match Opcode.ofBits (field w 12 4) with
  | .br => .br (field w 9 3) (sext (field w 0 9))
  | .add => if field w 5 1 = 1 then .addImm (regField w 9) (regField w 6) (sext (field w 0 5)) else .addReg (regField w 9) (regField w 6) (regField w 0)
  | .ld => .ld (regField w 9) (sext (field w 0 9))
  | .st => .st (regField w 9) (sext (field w 0 9))
  | .jsr => if field w 11 1 = 1 then .jsr (sext (field w 0 11)) else .jsrr (regField w 6)
  | .and => if field w 5 1 = 1 then .andImm (regField w 9) (regField w 6) (sext (field w 0 5)) else .andReg (regField w 9) (regField w 6) (regField w 0)
  | .ldr => .ldr (regField w 9) (regField w 6) (sext (field w 0 6))
  | .str => .str (regField w 9) (regField w 6) (sext (field w 0 6))
  | .rti => .rti
  | .not => .not (regField w 9) (regField w 6)
  | .ldi => .ldi (regField w 9) (sext (field w 0 9))
  | .sti => .sti (regField w 9) (sext (field w 0 9))
  | .jmp => .jmp (regField w 6)
  | .res => .res
  | .lea => .lea (regField w 9) (sext (field w 0 9))
  | .trap => .trap (field w 0 8)

/-- The decoder on an instruction numbered as spec/opcode_table.json numbers it. Every instruction is one 16-bit word
(R70), so bit i of `w` is bit i of the cell, the bits above `nbits` are 0, and a longer instruction does not exist. -/
def decodeTableWord (nbits w : Nat) : Option Instr :=
  if nbits ≤ 16 then some (decode (BitVec.ofNat 16 (w % 2 ^ nbits))) else none

/-! ### The encoder -/

/-- The low `n` bits of an operand value. -/
def low (n : Nat) (v : Word) : BitVec n := v.setWidth n

/-- An opcode and the twelve bits after it (R71). -/
def withOpcode (op : Opcode) (rest : BitVec 12) : Word := op.number ++ rest

/-- Three bits at 11:9, a register or the mask, and the nine after them (R72). -/
def at11 (b : BitVec 3) (rest : BitVec 9) : BitVec 12 := b ++ rest

/-- A mode bit at 11 and the eleven bits after it (R72). -/
def modeAt11 (mode : BitVec 1) (rest : BitVec 11) : BitVec 12 := mode ++ rest

/-- A register at 8:6 and the six bits after it (R72). -/
def at8 (b : BitVec 3) (rest : BitVec 6) : BitVec 9 := b ++ rest

/-- A mode bit at 5 and the five bits after it (R72). -/
def modeAt5 (mode : BitVec 1) (rest : BitVec 5) : BitVec 6 := mode ++ rest

/-- A register at 2:0 below two ignored bits (R73). -/
def at2 (b : BitVec 3) : BitVec 5 := 0b00#2 ++ b

/-- A trap vector at 7:0 below four ignored bits (R73). -/
def vectorBits (v : BitVec 8) : BitVec 12 := 0x0#4 ++ v

/-- The word of an instruction, in the layouts of R73. An ignored bit is encoded as 0, but for NOT's six, which are 1 as
in the spec's own words for it (R104; log 23). -/
def encode : Instr → Word
  | .br nzp off => withOpcode .br (at11 nzp (low 9 off))
  | .addReg dr sr1 sr2 => withOpcode .add (at11 dr.bits (at8 sr1.bits (modeAt5 0 (at2 sr2.bits))))
  | .addImm dr sr1 imm => withOpcode .add (at11 dr.bits (at8 sr1.bits (modeAt5 1 (low 5 imm))))
  | .ld dr off => withOpcode .ld (at11 dr.bits (low 9 off))
  | .st sr off => withOpcode .st (at11 sr.bits (low 9 off))
  | .jsr off => withOpcode .jsr (modeAt11 1 (low 11 off))
  | .jsrr base => withOpcode .jsr (at11 0 (at8 base.bits 0))
  | .andReg dr sr1 sr2 => withOpcode .and (at11 dr.bits (at8 sr1.bits (modeAt5 0 (at2 sr2.bits))))
  | .andImm dr sr1 imm => withOpcode .and (at11 dr.bits (at8 sr1.bits (modeAt5 1 (low 5 imm))))
  | .ldr dr base off => withOpcode .ldr (at11 dr.bits (at8 base.bits (low 6 off)))
  | .str sr base off => withOpcode .str (at11 sr.bits (at8 base.bits (low 6 off)))
  | .rti => withOpcode .rti 0
  | .not dr sr => withOpcode .not (at11 dr.bits (at8 sr.bits 0b111111))
  | .ldi dr off => withOpcode .ldi (at11 dr.bits (low 9 off))
  | .sti sr off => withOpcode .sti (at11 sr.bits (low 9 off))
  | .jmp base => withOpcode .jmp (at11 0 (at8 base.bits 0))
  | .res => withOpcode .res 0
  | .lea dr off => withOpcode .lea (at11 dr.bits (low 9 off))
  | .trap vect => withOpcode .trap (vectorBits vect)

/-! ### The opcode table -/

/-- match and mask of each row of spec/opcode_table.json, in the table's order: a word is an instruction of the row when
its bits under the mask are the match. -/
def opcodeRows : List (Word × Word) :=
  [(0x0000, 0xF000), (0x1000, 0xF020), (0x1020, 0xF020), (0x2000, 0xF000), (0x3000, 0xF000), (0x4800, 0xF800),
   (0x4000, 0xF800), (0x5000, 0xF020), (0x5020, 0xF020), (0x6000, 0xF000)] ++
  [(0x7000, 0xF000), (0x8000, 0xF000), (0x9000, 0xF000), (0xA000, 0xF000), (0xB000, 0xF000), (0xC000, 0xF000),
   (0xD000, 0xF000), (0xE000, 0xF000), (0xF000, 0xF000)]

/-- `w` is an instruction of the row. -/
def inRow (row : Word × Word) (w : Word) : Bool := w &&& row.2 == row.1

/-- An instruction's row: its place in `opcodeRows`. -/
def Instr.rowIndex : Instr → Fin 19
  | .br _ _ => 0
  | .addReg _ _ _ => 1
  | .addImm _ _ _ => 2
  | .ld _ _ => 3
  | .st _ _ => 4
  | .jsr _ => 5
  | .jsrr _ => 6
  | .andReg _ _ _ => 7
  | .andImm _ _ _ => 8
  | .ldr _ _ _ => 9
  | .str _ _ _ => 10
  | .rti => 11
  | .not _ _ => 12
  | .ldi _ _ => 13
  | .sti _ _ => 14
  | .jmp _ => 15
  | .res => 16
  | .lea _ _ => 17
  | .trap _ => 18

/-- The row at a place of the table. -/
def opcodeRow (k : Fin 19) : Word × Word := opcodeRows[k.val]'k.isLt

/-- The bits an instruction reads: all but the ignored ones that R82 lists for it. -/
def Instr.usedBits : Instr → Word
  | .addReg _ _ _ => 0xFFE7
  | .andReg _ _ _ => 0xFFE7
  | .not _ _ => 0xFFC0
  | .jsrr _ => 0xF9C0
  | .jmp _ => 0xF1C0
  | .trap _ => 0xF0FF
  | .rti => 0xF000
  | .res => 0xF000
  | .br _ _ => 0xFFFF
  | .addImm _ _ _ => 0xFFFF
  | .andImm _ _ _ => 0xFFFF
  | .ld _ _ => 0xFFFF
  | .st _ _ => 0xFFFF
  | .jsr _ => 0xFFFF
  | .ldr _ _ _ => 0xFFFF
  | .str _ _ _ => 0xFFFF
  | .ldi _ _ => 0xFFFF
  | .sti _ _ => 0xFFFF
  | .lea _ _ => 0xFFFF

end Sys2Proof
end

