-- ==== Sys2Proof/Config.lean ====
section
/-! DEFINITION. What the spec leaves to the implementation or the host (00_scope.md R8; 92_eei_decisions.md). -/

namespace Sys2Proof

/-- IN_PROMPT: the text the IN service writes before it reads (D12, OPEN). No body: a claim that holds of this
constant holds of every text (log 15). -/
opaque Config.inPrompt : List Byte

/-- HALT_MESSAGE: the text the HALT service writes (D12, OPEN). No body (log 15). -/
opaque Config.haltMessage : List Byte

/-- STRING_READS_POLL: whether PUTS and PUTSP reads of 0xFE00 run the keyboard poll; the spec decides true (D8, log 9). -/
def Config.stringReadsPoll : Bool := true

/-- What a cell that the memory's list does not name reads as, the same at every address.
DESIGN CHOICE (log 2): the spec leaves MEM_INIT open (D4). Every memory content is a list, so a statement about every
state is a statement about every MEM_INIT; only `State.reset` itself leans on this value. Unsafe there. -/
def Config.unlistedCell : Word := 0

/-- LOAD_OVERFLOW: what the host's loader does with words past 0xFFFF (D13, OPEN): an argument of the loader. -/
inductive Config.LoadOverflow where
  | wrap | truncate | reject
deriving DecidableEq, Repr

end Sys2Proof
end

