-- ==== Sys2Proof/Machine/State.lean ====
section
/-! DEFINITION. The machine's state as plain data, the ends of a run, and the state at reset (10_state.md R20 to R30,
R35, R41 to R43; 70_reset_and_hazards.md R190). -/

namespace Sys2Proof.Machine

/-- R0..R7 (R21). -/
structure RegFile where
  r0 : Word
  r1 : Word
  r2 : Word
  r3 : Word
  r4 : Word
  r5 : Word
  r6 : Word
  r7 : Word
deriving DecidableEq, Repr

/-- The condition code, 3 bits (R27). Bit 2 is N, bit 1 is Z, bit 0 is P: the spec's general knowledge K4 (log 18). -/
abbrev Cond := BitVec 3

/-- NEGATIVE (R27). -/
def Cond.N : Cond := 0b100

/-- ZERO (R27). -/
def Cond.Z : Cond := 0b010

/-- POSITIVE (R27). -/
def Cond.P : Cond := 0b001

/-- The run state (R30). -/
inductive RunState where
  | running | halted
deriving DecidableEq, Repr

/-- The 65536 cells of R50 as (address, value) pairs, in one canonical form (`Memory.wf`): addresses strictly rising and
no pair equal to what an unlisted cell reads as (`Config.unlistedCell`). The unit is the 16-bit cell (log 1). -/
abbrev Memory := List (Nat × Word)

/-- The console as the core sees it (R40 to R43). -/
structure Console where
  /-- Characters supplied and not yet consumed, oldest first (R41, R42). -/
  pending : List Byte
  /-- The model's own field: the batches of characters the host supplies later, the first of them just before the next
  ConAvail, or while a ConRead waits. It is the draw of R41 and D16 as plain data: every finite arrival schedule is such a
  list (log 4). -/
  arrivals : List (List Byte)
  /-- The model's own field: the draws that repeat for ever once the batches are through, one at each ConAvail: a character
  arrives, or (`none`) nothing does. The first draw goes to the back when it is taken. Empty for a host whose input has then
  ended; otherwise the polls go on being answered as drawn, in any pattern (D16, R199; log 4). -/
  endless : List (Option Byte)
  /-- The characters written, oldest first (R43). -/
  output : List Byte
deriving DecidableEq, Repr

/-- The architectural state (R20). While an instruction executes, `pc` is already the incremented PC (R24). -/
structure State where
  /-- R0..R7 (R21). -/
  regs : RegFile
  /-- The program counter (R24). -/
  pc : Word
  /-- COND (R27). -/
  cond : Cond
  /-- The run state (R30). -/
  run : RunState
  /-- M, KBSR and KBDR among its cells (R35). -/
  mem : Memory
  /-- The console (R41 to R43). -/
  console : Console
deriving DecidableEq, Repr

/-- The ways a step does not end in a next state. None is an exception, for the core has none (60_exceptions.md R170):
they are the ends of a run of 70_reset_and_hazards.md R200. -/
inductive Fault where
  /-- `step` raises it on a HALTED core: "no step exists (terminal)" (R31). It carries the frozen state, which the host may
  read (R45). Safe: nothing runs after it, as in the spec (log 7). -/
  | halted (final : State)
  /-- The GETC and IN services raise it when no character is pending and none will ever arrive: the core is blocked in the
  middle of the instruction, stuck and not halted (R42, D11). It carries the state reached there: R7 written, IN's prompt
  written (log 6). Safe: no later state exists in the spec either. -/
  | stuckAwaitingInput (blocked : State)
  /-- The PUTS and PUTSP services raise it when the string has no terminator: the step never ends (R144, R170, R200, U14).
  Since the reads poll at 0xFE00 (D8), it takes an endless input with a character ready at every poll, and no zero cell
  elsewhere. Safe: no later state exists in the spec either (log 8). -/
  | stringHang
deriving DecidableEq, Repr

/-- Reasons the model itself gives no answer. -/
inductive Refusal where
  /-- `exec` raises it for an instruction without a meaning yet; no arm does. Safe. -/
  | notModelled (mnemonic : String)
deriving DecidableEq, Repr

/-- A console on which nothing happens: no character pending, none to come, nothing written. -/
def Console.silent : Console := { pending := [], arrivals := [], endless := [], output := [] }

/-- The state before the first step (R190), for a GPR_INIT, a MEM_INIT and the input the console holds. -/
def State.resetWith (gprInit : RegFile) (memInit : Memory) (host : Console) : State :=
  { regs := gprInit, pc := 0x3000, cond := Cond.Z, run := .running, mem := memInit, console := { host with output := [] } }

/-- The reset state with nothing loaded. PC, COND and run are the spec's (R190). The registers' zeros (log 3), the empty
memory list (log 2) and the empty console (log 5) are DESIGN CHOICE, unsafe; no statement rests on them. -/
def State.reset : State :=
  State.resetWith { r0 := 0, r1 := 0, r2 := 0, r3 := 0, r4 := 0, r5 := 0, r6 := 0, r7 := 0 } [] Console.silent

end Sys2Proof.Machine
end

