-- ==== Sys2Proof/Machine/Ops.lean ====
section
/-! DEFINITION. The shared operations: registers, memory cells, the console transactions, the keyboard dispatcher, the
read and write primitives, the fetch and the link (10_state.md, 20_memory.md, 43_trap.md). -/

namespace Sys2Proof.Machine

/-! ### Registers (R12, R21) -/

/-- The value of a register. No register is hardwired (R21). -/
def RegFile.get (f : RegFile) : Reg → Word
  | .r0 => f.r0
  | .r1 => f.r1
  | .r2 => f.r2
  | .r3 => f.r3
  | .r4 => f.r4
  | .r5 => f.r5
  | .r6 => f.r6
  | .r7 => f.r7

/-- The file with one register replaced. -/
def RegFile.set (f : RegFile) (r : Reg) (v : Word) : RegFile :=
  match r with
  | .r0 => { f with r0 := v }
  | .r1 => { f with r1 := v }
  | .r2 => { f with r2 := v }
  | .r3 => { f with r3 := v }
  | .r4 => { f with r4 := v }
  | .r5 => { f with r5 := v }
  | .r6 => { f with r6 := v }
  | .r7 => { f with r7 := v }

/-- `R[r]` (R12). -/
def State.reg (s : State) (r : Reg) : Word := s.regs.get r

/-- `R[r] <- v` (R12). -/
def State.setReg (s : State) (r : Reg) (v : Word) : State := { s with regs := s.regs.set r v }

/-- `PC <- v` (R12). -/
def State.setPc (s : State) (v : Word) : State := { s with pc := v }

/-- `COND <- c` (R12). -/
def State.setCond (s : State) (c : Cond) : State := { s with cond := c }

/-- `run <- r` (R12). -/
def State.setRun (s : State) (r : RunState) : State := { s with run := r }

/-- The memory replaced. -/
def State.setMem (s : State) (m : Memory) : State := { s with mem := m }

/-- The console replaced. -/
def State.setConsole (s : State) (c : Console) : State := { s with console := c }

/-! ### Memory cells (R50) -/

/-- The cell at an address. -/
def Memory.read : Memory → Nat → Word
  | [], _ => Config.unlistedCell
  | (k, u) :: m, a => if k = a then u else Memory.read m a

/-- A pair put in front, unless an unlisted cell reads the same. -/
def Memory.put (a : Nat) (v : Word) (m : Memory) : Memory :=
  if v = Config.unlistedCell then m else (a, v) :: m

/-- The memory with one cell replaced, in canonical form. -/
def Memory.write : Memory → Nat → Word → Memory
  | [], a, v => Memory.put a v []
  | (k, u) :: m, a, v =>
    if a < k then Memory.put a v ((k, u) :: m)
    else if a = k then Memory.put a v m
    else (k, u) :: Memory.write m a v

/-- Canonical from address `lo` up: addresses rise strictly from `lo` and stay below 65536, and no pair is what an
unlisted cell reads as. -/
def Memory.wfFrom : Nat → Memory → Bool
  | _, [] => true
  | lo, (k, u) :: m => decide (lo ≤ k) && decide (k < 65536) && decide (u ≠ Config.unlistedCell) && Memory.wfFrom (k + 1) m

/-- The canonical form of a memory. -/
def Memory.wf (m : Memory) : Bool := Memory.wfFrom 0 m

/-- `M[a]`: the cell itself, with no poll. -/
def State.cell (s : State) (a : Word) : Word := s.mem.read a.toNat

/-- `M[a] <- v`. -/
def State.setCell (s : State) (a v : Word) : State := s.setMem (s.mem.write a.toNat v)

/-! ### Bytes and cells (R57) -/

/-- `zext_16` of a character (R11). -/
def zext (b : Byte) : Word := b.setWidth 16

/-- Bits 7..0. -/
def lowByte (v : Word) : Byte := v.extractLsb' 0 8

/-- Bits 15..8. -/
def highByte (v : Word) : Byte := v.extractLsb' 8 8

/-! ### The console port (R41 to R43) -/

/-- The host's next draw (D16): the next batch reaches the queue, or, the batches through, the next of the draws that repeat
for ever, a character or nothing. -/
def Console.arrive (c : Console) : Console :=
  match c.arrivals, c.endless with
  | batch :: later, _ => { c with pending := c.pending ++ batch, arrivals := later }
  | [], d :: rest => { c with pending := c.pending ++ d.toList, endless := rest ++ [d] }
  | [], [] => c

/-- The first character still to come, the rest of its batch, and the batches after it. -/
def firstArrival : List (List Byte) → Option (Byte × List Byte × List (List Byte))
  | [] => none
  | [] :: later => firstArrival later
  | (b :: rest) :: later => some (b, rest, later)

/-- The first character among repeating draws, and the draws in the order they then stand in: those `waited` through, and the
character's own, have gone to the back. -/
def nextDraw : (waited : List (Option Byte)) → List (Option Byte) → Option (Byte × List (Option Byte))
  | _, [] => none
  | waited, none :: later => nextDraw (waited ++ [none]) later
  | waited, some b :: later => some (b, later ++ waited ++ [some b])

/-- ConAvail (R41): whether a character is pending at the call, once the host's next batch has arrived. It consumes nothing. -/
def conAvail (s : State) : Bool × State :=
  let c := s.console.arrive
  (!c.pending.isEmpty, s.setConsole c)

/-- ConRead (R42): the oldest pending character, consumed. With none pending the core waits for the host's next character;
`none` when the host never supplies one. -/
def conRead (s : State) : Option (Byte × State) :=
  match s.console.pending with
  | b :: rest => some (b, s.setConsole { s.console with pending := rest })
  | [] =>
    match firstArrival s.console.arrivals with
    | some (b, rest, later) => some (b, s.setConsole { s.console with pending := rest, arrivals := later })
    | none =>
      match nextDraw [] s.console.endless with
      | some (b, draws) => some (b, s.setConsole { s.console with arrivals := [], endless := draws })
      | none => none

/-- ConWrite of each byte in turn (R43). -/
def conWrite (bs : List Byte) (s : State) : State :=
  s.setConsole { s.console with output := s.console.output ++ bs }

/-- How many characters the host still supplies, those pending included and an endless input left out. -/
def Console.inputLeft (c : Console) : Nat := c.pending.length + c.arrivals.flatten.length

/-- Polls enough to see whether the console's polls ever find nothing, or a zero character: the batches, the characters, and
the repeating draws once round, and again for each character that may stand in the queue. -/
def Console.pollBound (c : Console) : Nat := c.arrivals.length + c.inputLeft + (c.inputLeft + 1) * c.endless.length

/-! ### The memory-mapped I/O dispatcher (R52 to R55) -/

/-- KBSR, the keyboard status cell (R61). -/
def kbsrAddr : Word := 0xFE00

/-- KBDR, the keyboard data cell (R61). -/
def kbdrAddr : Word := 0xFE02

/-- KBSR after a poll that found a character: exactly this (R54; the spec's decision D5, log 10). -/
def kbsrReady : Word := 0x8000

/-- KeyboardPoll (R54). The ConRead never waits, for ConAvail has just answered true: its `none` is not reached
(`keyboardPoll_eq` in Laws/Ops.lean). -/
def keyboardPoll (s : State) : State :=
  let avail := conAvail s
  if avail.1 then
    let s1 := avail.2.setCell kbsrAddr kbsrReady
    match conRead s1 with
    | some (b, s2) => s2.setCell kbdrAddr (zext b)
    | none => s1
  else avail.2.setCell kbsrAddr 0x0000

/-- MemRead (R52): the value read, and the state after the poll if there was one. -/
def memRead (a : Word) (s : State) : Word × State :=
  let s1 := if a = kbsrAddr then keyboardPoll s else s
  (s1.cell a, s1)

/-- MemWrite (R53): a plain store at every address (D10, log 14). -/
def memWrite (a v : Word) (s : State) : State := s.setCell a v

/-- StrRead, the read of PUTS and PUTSP: MemRead when STRING_READS_POLL (R144's section, D8). -/
def strRead (a : Word) (s : State) : Word × State :=
  if Config.stringReadsPoll then memRead a s else (s.cell a, s)

/-! ### The fetch and the link -/

/-- The fetch of R31: IR by MemRead (D7, log 12), then PC <- PC + 1 mod 2^16 (R24, R26). -/
def fetch (s : State) : Word × State :=
  let ir := memRead s.pc s
  (ir.1, ir.2.setPc (ir.2.pc + 1))

/-- `R[7] <- PC`, the link of JSR, JSRR and TRAP (R21). -/
def link (s : State) : State := s.setReg .r7 s.pc

/-- Trap entry saves the return address in R7 and nothing else: no COND, mode, mask or stack (R140, R173). It is the only
entry the core has, for it raises no exception (R170) and takes no interrupt (R171); and the return is implicit, since no
service writes PC (R174). -/
def enterTrap (s : State) : State := link s

end Sys2Proof.Machine
end

