-- ==== Sys2Proof/Machine/Operands.lean ====
section
/-! DEFINITION. The four addressing modes (42_load_store.md R127). Sums wrap modulo 2^16 (20_memory.md R60). The immediate
operand is the instruction's own value, already extended (30_encoding.md R74, R85). -/

namespace Sys2Proof.Machine

/-- PC-relative: the incremented PC plus the offset (R24, R127). -/
def pcRelative (off : Word) (s : State) : Word := s.pc + off

/-- Base plus offset (R127). The base is not modified. -/
def baseOffset (base : Reg) (off : Word) (s : State) : Word := s.reg base + off

/-- Indirect: the pointer read from the PC-relative cell by MemRead, which may poll (R121, R125). -/
def readPointer (off : Word) (s : State) : Word × State := memRead (pcRelative off s) s

end Sys2Proof.Machine
end

