-- ==== Sys2Proof/Machine/Control.lean ====
section
/-! DEFINITION. BR, JMP, JSR, JSRR (41_control.md R110 to R114). `s.pc` is the incremented PC. No flag is written and no
target faults. -/

namespace Sys2Proof.Machine

/-- BR (R110): taken when the mask and COND share a bit. -/
def execBr (nzp : BitVec 3) (off : Word) (s : State) : Host.Outcome State Fault Refusal :=
  .next (if nzp &&& s.cond ≠ 0 then s.setPc (pcRelative off s) else s)

/-- JMP (R111). -/
def execJmp (base : Reg) (s : State) : Host.Outcome State Fault Refusal :=
  .next (s.setPc (s.reg base))

/-- JSR (R112): the link, then the target. -/
def execJsr (off : Word) (s : State) : Host.Outcome State Fault Refusal :=
  let s1 := link s
  .next (s1.setPc (pcRelative off s1))

/-- JSRR (R113): the link first, then the target, read after the link write, so that JSRR R7 goes to the new R7. -/
def execJsrr (base : Reg) (s : State) : Host.Outcome State Fault Refusal :=
  let s1 := link s
  .next (s1.setPc (s1.reg base))

end Sys2Proof.Machine
end

