-- ==== Sys2Proof/Machine/Flags.lean ====
section
/-! DEFINITION. The flag update (40_operate.md R100, R101). -/

namespace Sys2Proof.Machine

/-- The flag a value sets (R100). -/
def condOf (v : Word) : Cond :=
  if v = 0x0000 then Cond.Z else if v.msb then Cond.N else Cond.P

/-- `setcc(v)` (R100). -/
def setcc (v : Word) (s : State) : State := s.setCond (condOf v)

/-- A result: the destination is written, then the flags are set from the destination's new value (R101). -/
def writeResult (dr : Reg) (v : Word) (s : State) : State :=
  let s1 := s.setReg dr v
  setcc (s1.reg dr) s1

end Sys2Proof.Machine
end

