-- ==== Sys2Proof/Machine/LoadStore.lean ====
section
/-! DEFINITION. LD, LDI, LDR, LEA, ST, STI, STR (42_load_store.md R120 to R126). Every read is MemRead and may poll the
keyboard; every write is MemWrite. -/

namespace Sys2Proof.Machine

/-- LD (R120). -/
def execLd (dr : Reg) (off : Word) (s : State) : Host.Outcome State Fault Refusal :=
  let data := memRead (pcRelative off s) s
  .next (writeResult dr data.1 data.2)

/-- LDI (R121): the pointer, then the data, each read through MemRead (R56). -/
def execLdi (dr : Reg) (off : Word) (s : State) : Host.Outcome State Fault Refusal :=
  let ptr := readPointer off s
  let data := memRead ptr.1 ptr.2
  .next (writeResult dr data.1 data.2)

/-- LDR (R122): the base is read before the destination is written. -/
def execLdr (dr base : Reg) (off : Word) (s : State) : Host.Outcome State Fault Refusal :=
  let data := memRead (baseOffset base off s) s
  .next (writeResult dr data.1 data.2)

/-- LEA (R123): no memory access; the flags are set from the address. -/
def execLea (dr : Reg) (off : Word) (s : State) : Host.Outcome State Fault Refusal :=
  .next (writeResult dr (pcRelative off s) s)

/-- ST (R124). -/
def execSt (sr : Reg) (off : Word) (s : State) : Host.Outcome State Fault Refusal :=
  .next (memWrite (pcRelative off s) (s.reg sr) s)

/-- STI (R125): the pointer's read may poll; then the store. -/
def execSti (sr : Reg) (off : Word) (s : State) : Host.Outcome State Fault Refusal :=
  let ptr := readPointer off s
  .next (memWrite ptr.1 (ptr.2.reg sr) ptr.2)

/-- STR (R126). -/
def execStr (sr base : Reg) (off : Word) (s : State) : Host.Outcome State Fault Refusal :=
  .next (memWrite (baseOffset base off s) (s.reg sr) s)

end Sys2Proof.Machine
end

