-- ==== Sys2Proof/Machine/Reserved.lean ====
section
/-! DEFINITION. The reserved opcodes (44_reserved.md R160 to R162): no-ops; the fetch has already advanced PC. -/

namespace Sys2Proof.Machine

/-- RES (R160). -/
def execRes (s : State) : Host.Outcome State Fault Refusal := .next s

/-- RTI (R161): no stack pop, no mode change, no privilege check. -/
def execRti (s : State) : Host.Outcome State Fault Refusal := .next s

end Sys2Proof.Machine
end

