-- ==== Sys2Proof/Machine/Trap.lean ====
section
/-! DEFINITION. TRAP and the six services, which run to completion inside the step (43_trap.md R140 to R148). No service
writes PC. -/

namespace Sys2Proof.Machine

/-- GETC (R142): blocks until a character is available; no echo. -/
def trapGetc (s : State) : Host.Outcome State Fault Refusal :=
  match conRead s with
  | some (c, s1) => .next (writeResult .r0 (zext c) s1)
  | none => .fault (.stuckAwaitingInput s)

/-- OUT (R143): the low byte of R0. -/
def trapOut (s : State) : Host.Outcome State Fault Refusal :=
  .next (conWrite [lowByte (s.reg .r0)] s)

/-- What PUTS writes for a cell: its low byte (R144). -/
def putsBytes (c : Word) : List Byte := [lowByte c]

/-- What PUTSP writes for a cell: its low byte always, then its high byte if that is not zero (R146). -/
def putspBytes (c : Word) : List Byte :=
  if highByte c = 0 then [lowByte c] else [lowByte c, highByte c]

/-- The loop of PUTS and PUTSP (R144, R146): cells are read from `a` on, the pointer wrapping modulo 2^16 (D9), until a whole
zero cell, and nothing after it is read. `fuel` bounds the cells read. -/
def stringLoop (emit : Word → List Byte) : (fuel : Nat) → (a : Word) → State → Host.Outcome State Fault Refusal
  | 0, _, _ => .fault .stringHang
  | fuel + 1, a, s =>
    let cell := strRead a s
    if cell.1 = 0x0000 then .next cell.2
    else stringLoop emit fuel (a + 1) (conWrite (emit cell.1) cell.2)

/-- Cells enough for every string that ends: once round the memory reads 0xFE00, whose poll consumes a character or reads as
a terminator. A string not ended when the bound is reached has met no zero cell and all that an endless input can bring, and never
ends (log 8, `stringLoop_hang_forever` in Laws/Strings.lean). -/
def stringFuel (s : State) : Nat := (s.console.pollBound + 3) * 65536

/-- PUTS (R144). -/
def trapPuts (s : State) : Host.Outcome State Fault Refusal :=
  stringLoop putsBytes (stringFuel s) (s.reg .r0) s

/-- IN (R145): the prompt, then the blocking read, then the echo, then R0 and the flags (D15, log 16). -/
def trapIn (s : State) : Host.Outcome State Fault Refusal :=
  let s1 := conWrite Config.inPrompt s
  match conRead s1 with
  | some (c, s2) => .next (writeResult .r0 (zext c) (conWrite [c] s2))
  | none => .fault (.stuckAwaitingInput s1)

/-- PUTSP (R146). -/
def trapPutsp (s : State) : Host.Outcome State Fault Refusal :=
  stringLoop putspBytes (stringFuel s) (s.reg .r0) s

/-- HALT (R147): the announcement, then HALTED. -/
def trapHalt (s : State) : Host.Outcome State Fault Refusal :=
  .next ((conWrite Config.haltMessage s).setRun .halted)

/-- `service(v)`, the dispatch table of R141; any other vector runs no service (R148). -/
def trapService (v : BitVec 8) (s : State) : Host.Outcome State Fault Refusal :=
  if v = 0x20 then trapGetc s
  else if v = 0x21 then trapOut s
  else if v = 0x22 then trapPuts s
  else if v = 0x23 then trapIn s
  else if v = 0x24 then trapPutsp s
  else if v = 0x25 then trapHalt s
  else .next s

/-- TRAP (R140): entry writes R7, whatever the vector, then the service runs. -/
def execTrap (vect : BitVec 8) (s : State) : Host.Outcome State Fault Refusal :=
  trapService vect (enterTrap s)

end Sys2Proof.Machine
end

