-- ==== Sys2Proof/Machine/Step.lean ====
section
/-! DEFINITION. One step of the fetch-decode-execute loop (10_state.md R31, R32). -/

namespace Sys2Proof.Machine

/-- `step()` (R31): on a RUNNING core, fetch, decode, execute one instruction completely; on a HALTED core no step exists. -/
def step (s : State) : Host.Outcome State Fault Refusal :=
  match s.run with
  | .halted => .fault (.halted s)
  | .running => exec (decode (fetch s).1) (fetch s).2

/-- The state with one instruction, numbered as spec/opcode_table.json numbers it, at PC, and running: what the host's load
does for a program (R44; log 20). PC = 0xFE00 is the one address where no program can stand, since the fetch's poll
overwrites that cell (R54, D7): `step` then fetches what the poll leaves. -/
def State.withFetchWord (s : State) (nbits w : Nat) : State :=
  (s.setCell s.pc (BitVec.ofNat 16 (w % 2 ^ nbits))).setRun .running

end Sys2Proof.Machine
end

