-- ==== Sys2Proof/Machine/Boot.lean ====
section
/-! DEFINITION. How images define MEM_INIT and the state before the first step (70_reset_and_hazards.md R190, R194 to R196).
Loading is the host's and out of scope (00_scope.md R5); it stands here because it defines MEM_INIT (R195). -/

namespace Sys2Proof.Machine

/-- The words of a byte string, each pair big-endian: `b0 * 256 + b1` (R195). `none` for an odd number of bytes: not an image
(log 22). -/
def imageWords : List Byte → Option (List Word)
  | [] => some []
  | [_] => none
  | b0 :: b1 :: rest => (imageWords rest).map ((b0 ++ b1) :: ·)

/-- Words placed consecutively from `a` on, with LOAD_OVERFLOW deciding what happens past 0xFFFF (R195, D13). -/
def placeWords (overflow : Config.LoadOverflow) : (a : Nat) → List Word → Memory → Option Memory
  | _, [], m => some m
  | a, w :: ws, m =>
    if a < 65536 then placeWords overflow (a + 1) ws (m.write a w)
    else match overflow with
      | .wrap => placeWords overflow (a % 65536 + 1) ws (m.write (a % 65536) w)
      | .truncate => some m
      | .reject => none

/-- One image: a big-endian origin word, then the words for origin, origin + 1, and so on (R195). -/
def loadImage (overflow : Config.LoadOverflow) (m : Memory) (file : List Byte) : Option Memory :=
  match imageWords file with
  | some (origin :: words) => placeWords overflow origin.toNat words m
  | _ => none

/-- Images in the order given, a later one over an earlier one (D14). `none` if one fails. -/
def loadImages (overflow : Config.LoadOverflow) : Memory → List (List Byte) → Option Memory
  | m, [] => some m
  | m, file :: files =>
    match loadImage overflow m file with
    | some m1 => loadImages overflow m1 files
    | none => none

/-- The state before the first step for the images given. `none`, the core does not start, if an image fails to load or none
is given (R196). PC is 0x3000 whatever the origins (R191). The cells no image covers are those of `before` (D4). -/
def State.boot (overflow : Config.LoadOverflow) (gprInit : RegFile) (before : Memory) (images : List (List Byte))
    (host : Console) : Option State :=
  match images with
  | [] => none
  | _ :: _ => (loadImages overflow before images).map fun m => State.resetWith gprInit m host

end Sys2Proof.Machine
end

