-- ==== Sys2Proof/Safety.lean ====
section
/-! DEFINITION. The vocabulary of claims: the invariant, what a frame leaves unchanged, and the spec's tables of who
writes what, written as functions of the instruction apart from the meanings. -/

namespace Sys2Proof.Machine

/-! ### The invariant -/

/-- COND holds exactly one of N, Z, P (10_state.md R27). -/
def oneHot (c : Cond) : Bool := c == Cond.N || c == Cond.Z || c == Cond.P

/-- The memory is in canonical form and COND is one flag: what every step keeps. -/
def State.inv (s : State) : Bool := s.mem.wf && oneHot s.cond

/-! ### Frames -/

/-- Every register outside `ds` is unchanged. -/
def SameRegsBut (ds : List Reg) (s t : State) : Prop := ∀ r, r ∉ ds → t.reg r = s.reg r

/-- Every cell outside `addrs` reads as before. -/
def SameCellsBut (addrs : List Word) (s t : State) : Prop := ∀ a, a ∉ addrs → t.cell a = s.cell a

/-- PC is the incremented PC, the core still runs if it did, and the console is untouched. -/
def SameControl (s t : State) : Prop := t.pc = s.pc ∧ t.run = s.run ∧ t.console = s.console

/-- `c` is the flag of the value `v` (40_operate.md R100). -/
def FlagsOf (v : Word) (c : Cond) : Prop :=
  (v = 0 → c = Cond.Z) ∧ (v.getLsbD 15 = true → c = Cond.N) ∧ (v ≠ 0 → v.getLsbD 15 = false → c = Cond.P)

/-- `t` is `s` with `v` in `dr` and its flag in COND, and nothing else changed. -/
def ResultIn (dr : Reg) (v : Word) (s t : State) : Prop :=
  t.reg dr = v ∧ FlagsOf v t.cond ∧ SameRegsBut [dr] s t ∧ SameCellsBut [] s t ∧ SameControl s t

/-- `t` is `s` with `v` in the cell `a`, and nothing else changed. -/
def StoredAt (a v : Word) (s t : State) : Prop :=
  t.cell a = v ∧ SameCellsBut [a] s t ∧ SameRegsBut [] s t ∧ t.cond = s.cond ∧ SameControl s t

/-- `t` is `s` with PC at `target` and the registers `ds` written, and nothing else changed. -/
def WentTo (target : Word) (ds : List Reg) (s t : State) : Prop :=
  t.pc = target ∧ SameRegsBut ds s t ∧ SameCellsBut [] s t ∧ t.cond = s.cond ∧ t.run = s.run ∧ t.console = s.console

/-! ### The console's input -/

/-- The character at a place of an input: the characters of the first list, then the second over and over. -/
def inputAt : List Byte → List Byte → Nat → Option Byte
  | [], endless, k => endless[k % endless.length]?
  | b :: _, _, 0 => some b
  | _ :: rest, endless, k + 1 => inputAt rest endless k

/-- The characters of draws, in order. -/
def drawn : List (Option Byte) → List Byte
  | [] => []
  | none :: rest => drawn rest
  | some b :: rest => b :: drawn rest

/-- The characters still to be consumed, in the order the host supplies them (10_state.md R42): the one at place `k`, counted
from 0; `none` past the end of an input that ends. -/
def Console.upcoming (c : Console) (k : Nat) : Option Byte :=
  inputAt (c.pending ++ c.arrivals.flatten) (drawn c.endless) k

/-- From `c` to `d` the first `n` characters were consumed, and what follows is what followed. -/
def ConsumedInput (n : Nat) (c d : Console) : Prop := ∀ k, d.upcoming k = c.upcoming (k + n)

/-- The state after `n` reads of KBSR one after the other. -/
def afterPolls : (n : Nat) → State → State
  | 0, s => s
  | n + 1, s => afterPolls n (memRead kbsrAddr s).2

/-! ### The string services' reads -/

/-- The `n`-th read, counted from 0, of the loop of PUTS and PUTSP from `a` on, as if no cell ended it (43_trap.md R144, R146),
and the state it leaves. -/
def stringRead : (n : Nat) → (a : Word) → State → Word × State
  | 0, a, s => memRead a s
  | n + 1, a, s => stringRead n (a + 1) (memRead a s).2

/-! ### The spec's tables -/

/-- The register an instruction's flags come from, for the COND writers of 10_state.md R28. -/
def flagSource : Instr → Option Reg
  | .addReg dr _ _ => some dr
  | .addImm dr _ _ => some dr
  | .andReg dr _ _ => some dr
  | .andImm dr _ _ => some dr
  | .not dr _ => some dr
  | .ld dr _ => some dr
  | .ldi dr _ => some dr
  | .ldr dr _ _ => some dr
  | .lea dr _ => some dr
  | .trap v => if v = 0x20 ∨ v = 0x23 then some .r0 else none
  | .br _ _ => none
  | .st _ _ => none
  | .jsr _ => none
  | .jsrr _ => none
  | .str _ _ _ => none
  | .rti => none
  | .sti _ _ => none
  | .jmp _ => none
  | .res => none

/-- The registers an instruction writes: the last column of 10_state.md R22. -/
def regsWritten : Instr → List Reg
  | .addReg dr _ _ => [dr]
  | .addImm dr _ _ => [dr]
  | .andReg dr _ _ => [dr]
  | .andImm dr _ _ => [dr]
  | .not dr _ => [dr]
  | .ld dr _ => [dr]
  | .ldi dr _ => [dr]
  | .ldr dr _ _ => [dr]
  | .lea dr _ => [dr]
  | .jsr _ => [.r7]
  | .jsrr _ => [.r7]
  | .trap v => if v = 0x20 ∨ v = 0x23 then [.r0, .r7] else [.r7]
  | .br _ _ => []
  | .st _ _ => []
  | .str _ _ _ => []
  | .rti => []
  | .sti _ _ => []
  | .jmp _ => []
  | .res => []

/-- The registers an instruction reads: the middle column of 10_state.md R22. JSRR R7 reads the link just written, not the
old R7 (R113). -/
def regsRead : Instr → List Reg
  | .addReg _ sr1 sr2 => [sr1, sr2]
  | .andReg _ sr1 sr2 => [sr1, sr2]
  | .addImm _ sr1 _ => [sr1]
  | .andImm _ sr1 _ => [sr1]
  | .not _ sr => [sr]
  | .jmp base => [base]
  | .jsrr base => if base = .r7 then [] else [base]
  | .ldr _ base _ => [base]
  | .st sr _ => [sr]
  | .sti sr _ => [sr]
  | .str sr base _ => [sr, base]
  | .trap v => if v = 0x21 ∨ v = 0x22 ∨ v = 0x24 then [.r0] else []
  | .br _ _ => []
  | .jsr _ => []
  | .ld _ _ => []
  | .ldi _ _ => []
  | .lea _ _ => []
  | .rti => []
  | .res => []

/-- PC after an instruction, from the state after its fetch: the table of 10_state.md R25. -/
def pcAfter (i : Instr) (s : State) : Word :=
  match i with
  | .br nzp off => if nzp &&& s.cond = 0 then s.pc else s.pc + off
  | .jmp base => s.reg base
  | .jsr off => s.pc + off
  | .jsrr base => if base = .r7 then s.pc else s.reg base
  | .addReg _ _ _ => s.pc
  | .addImm _ _ _ => s.pc
  | .andReg _ _ _ => s.pc
  | .andImm _ _ _ => s.pc
  | .not _ _ => s.pc
  | .ld _ _ => s.pc
  | .ldi _ _ => s.pc
  | .ldr _ _ _ => s.pc
  | .lea _ _ => s.pc
  | .st _ _ => s.pc
  | .str _ _ _ => s.pc
  | .sti _ _ => s.pc
  | .trap _ => s.pc
  | .rti => s.pc
  | .res => s.pc

/-- The cells an instruction stores to, by the expressions its meaning uses: the last column of 20_memory.md R51. STI's
address is the pointer MemRead answers. -/
def cellsStored (i : Instr) (s : State) : List Word :=
  match i with
  | .st _ off => [pcRelative off s]
  | .str _ base off => [baseOffset base off s]
  | .sti _ off => [(readPointer off s).1]
  | .br _ _ => []
  | .jmp _ => []
  | .jsr _ => []
  | .jsrr _ => []
  | .addReg _ _ _ => []
  | .addImm _ _ _ => []
  | .andReg _ _ _ => []
  | .andImm _ _ _ => []
  | .not _ _ => []
  | .ld _ _ => []
  | .ldi _ _ => []
  | .ldr _ _ _ => []
  | .lea _ _ => []
  | .trap _ => []
  | .rti => []
  | .res => []

/-- The instructions that read data memory, and so may poll the keyboard: the second column of 20_memory.md R51. -/
def readsMemory : Instr → Bool
  | .ld _ _ => true
  | .ldi _ _ => true
  | .ldr _ _ _ => true
  | .sti _ _ => true
  | .trap v => v == 0x22 || v == 0x24
  | .br _ _ => false
  | .jmp _ => false
  | .jsr _ => false
  | .jsrr _ => false
  | .addReg _ _ _ => false
  | .addImm _ _ _ => false
  | .andReg _ _ _ => false
  | .andImm _ _ _ => false
  | .not _ _ => false
  | .lea _ _ => false
  | .st _ _ => false
  | .str _ _ _ => false
  | .rti => false
  | .res => false

end Sys2Proof.Machine
end

