-- ==== Sys2Proof/Certificates/Slice0/Obligations.lean ====
section
/-! DEFINITION. The statements for the provers. `s` is always the state after the fetch where `exec` is stated, so `s.pc` is
the incremented PC (10_state.md R24). `s.mem.wf = true` stands as a premise where a cell is read after a store: it is part
of the invariant of `Obligations.StepKeepsInvariant`. -/

open Sys2Proof Sys2Proof.Machine

/-! ### Encoding -/

/-- 30_encoding.md R85 and R73: decode of encode is the instruction, for every operand its encoding admits. The layout is the
spec's general knowledge (K5 to K7, log 17), the ignored bits' encoding the model's choice (log 23). -/
def Obligations.DecodeInvertsEncode : Prop :=
  ∀ i : Instr, i.wellFormed = true → decode (encode i) = i

/-- The other direction (R82, R85): encoding what a word decodes to gives back every bit that is not ignored (log 17). -/
def Obligations.EncodeKeepsEveryUsedBit : Prop :=
  ∀ w : Word, encode (decode w) &&& (decode w).usedBits = w &&& (decode w).usedBits

/-- R82: a word that differs only in ignored bits is the same instruction (the places of those bits: log 17). -/
def Obligations.IgnoredBitsChangeNothing : Prop :=
  ∀ w w' : Word, w' &&& (decode w).usedBits = w &&& (decode w).usedBits → decode w' = decode w

/-- R34 and R80, with spec/opcode_table.json: every word lies in one row of the table, the row of the instruction it decodes
to, and in no other (log 17). -/
def Obligations.EveryWordIsInItsRowAlone : Prop :=
  ∀ (w : Word) (k : Fin 19), inRow (opcodeRow k) w = true ↔ k = (decode w).rowIndex

/-- R34 with R74 to R77: every word decodes, and each immediate and offset is in its field's range. -/
def Obligations.DecodeAnswersWellFormed : Prop :=
  ∀ w : Word, (decode w).wellFormed = true

/-- Words that the spec's section 95 and rule files spell out (log 17). -/
def Obligations.SpecWordsDecode : Prop :=
  decode 0x0A02 = .br 0b101 2 ∧ decode 0x1283 = .addReg .r1 .r2 .r3 ∧ decode 0x103F = .addImm .r0 .r0 0xFFFF ∧
  decode 0xA5FE = .ldi .r2 0xFFFE ∧ decode 0x673F = .ldr .r3 .r4 0xFFFF ∧ decode 0x4C00 = .jsr 0xFC00 ∧
  decode 0x47FF = .jsrr .r7 ∧ decode 0x9940 = .not .r4 .r5 ∧ decode 0xCE3F = .jmp .r0 ∧ decode 0xD123 = .res ∧
  decode 0x8FFF = .rti ∧ decode 0xF125 = .trap 0x25

/-- 00_scope.md R11: sign extension as the formula of the rule, for every field width, and zero extension of a character. -/
def Obligations.SignAndZeroExtension : Prop :=
  (∀ n, 0 < n → n ≤ 16 → ∀ v : BitVec n,
    sext v = if v.getLsbD (n - 1) then v.setWidth 16 + (0xFFFF#16 <<< n) else v.setWidth 16) ∧
  ∀ b : Byte, (∀ k, k < 8 → (zext b).getLsbD k = b.getLsbD k) ∧ ∀ k, 8 ≤ k → (zext b).getLsbD k = false

/-! ### Reset, memory contents and loading -/

/-- 70_reset_and_hazards.md R190: the state before the first step, for every GPR_INIT, MEM_INIT and console; `State.reset` is
one of these, with the model's choices of log 2, 3 and 5. -/
def Obligations.ResetStateOfEveryInit : Prop :=
  (∀ (g : RegFile) (m : Memory) (host : Console),
    let s := State.resetWith g m host
    s.pc = 0x3000 ∧ s.cond = Cond.Z ∧ s.run = .running ∧ (∀ r, s.reg r = g.get r) ∧
      (∀ a : Word, s.cell a = m.read a.toNat) ∧ s.console = { host with output := [] }) ∧
  ∃ (g : RegFile) (m : Memory) (host : Console), State.reset = State.resetWith g m host

/-- The invariant of `Obligations.StepKeepsInvariant` holds at reset, for every canonical memory. -/
def Obligations.InvariantAtReset : Prop :=
  State.reset.inv = true ∧
  ∀ (g : RegFile) (m : Memory) (host : Console), m.wf = true → (State.resetWith g m host).inv = true

/-- Every MEM_INIT (D4, R190) is the content of a canonical memory, so statements about every state lean on no reset value of
a cell (log 1, log 2: the representation is the model's). -/
def Obligations.EveryMemoryContentIsAList : Prop :=
  ∀ f : Word → Word, ∃ m : Memory, m.wf = true ∧ ∀ a : Word, m.read a.toNat = f a

/-- Canonical memories that read alike are equal data (log 1: the representation is the model's). -/
def Obligations.MemoriesThatReadAlikeAreEqual : Prop :=
  ∀ m m' : Memory, m.wf = true → m'.wf = true → (∀ a : Word, m.read a.toNat = m'.read a.toNat) → m = m'

/-- R195 and the source's round trip (W10): an image that fits is loaded, its words stand from the origin on, and every other
cell is as before. LOAD_OVERFLOW does not matter to it. -/
def Obligations.LoadedImageReadsBack : Prop :=
  ∀ (overflow : Config.LoadOverflow) (m : Memory) (origin : Word) (ws : List Word),
    m.wf = true → origin.toNat + ws.length ≤ 65536 →
    ∃ m' : Memory, loadImage overflow m ((origin :: ws).flatMap fun w => [highByte w, lowByte w]) = some m' ∧
      m'.wf = true ∧ (∀ k (hk : k < ws.length), m'.read (origin.toNat + k) = ws[k]) ∧
      ∀ a, a < origin.toNat ∨ origin.toNat + ws.length ≤ a → m'.read a = m.read a

/-- R196: with no image, or one that fails to load, the core does not start. -/
def Obligations.NoStartWithoutImages : Prop :=
  ∀ (overflow : Config.LoadOverflow) (g : RegFile) (before : Memory) (host : Console),
    State.boot overflow g before [] host = none ∧
    ∀ (done rest : List (List Byte)) (file : List Byte) (m : Memory),
      loadImages overflow before done = some m → loadImage overflow m file = none →
      State.boot overflow g before (done ++ file :: rest) host = none

/-! ### The step -/

/-- 10_state.md R31: no step exists on a HALTED core; on a RUNNING one the word at PC is read by MemRead, PC advances, and the
instruction the word decodes to is executed. -/
def Obligations.StepFetchesDecodesExecutes : Prop :=
  ∀ s : State, (s.run = .halted → ∀ t, step s ≠ .next t) ∧
    (s.run = .running →
      step s = exec (decode (memRead s.pc s).1) ((memRead s.pc s).2.setPc (BitVec.ofNat 16 (s.pc.toNat + 1))))

/-- A step runs the decoded instruction: where the cell at PC decodes to `i`, and PC is not KBSR, whose read polls, the step is
`exec i` at the state with PC advanced. -/
def Obligations.StepRunsTheDecodedInstruction : Prop :=
  ∀ (s : State) (i : Instr), s.run = .running → s.pc ≠ 0xFE00 → decode (s.cell s.pc) = i →
    step s = exec i (s.setPc (s.pc + 1))

/-- A fetch at 0xFE00 polls (R31, R54; the spec's decisions D7 and D5, log 10 and 12): what it fetches is RTI or a BR never
taken, so the step completes, PC is 0xFE01, and only the poll has happened. -/
def Obligations.FetchAtKbsrPolls : Prop :=
  ∀ s : State, s.run = .running → s.pc = 0xFE00 → s.mem.wf = true →
    ∃ t, step s = .next t ∧ t.pc = 0xFE01 ∧ SameRegsBut [] s t ∧ SameCellsBut [0xFE00, 0xFE02] s t ∧ t.cond = s.cond ∧
      t.run = .running ∧ t.console.output = s.console.output ∧
      (s.console.arrive.pending = [] → t.cell 0xFE00 = 0 ∧ t.cell 0xFE02 = s.cell 0xFE02 ∧ t.console.pending = []) ∧
      ∀ b rest, s.console.arrive.pending = b :: rest →
        t.cell 0xFE00 = 0x8000 ∧ t.cell 0xFE02 = zext b ∧ t.console.pending = rest

/-- A HALTED core's step answers the end of the run with the frozen state (R30, R45; the form of the answer is the model's,
log 7). -/
def Obligations.HaltedCoreIsFrozen : Prop :=
  ∀ s : State, s.run = .halted → step s = .fault (.halted s)

/-- R30: RUNNING at reset, only the HALT service sets HALTED, nothing returns it to RUNNING, and HALTED is terminal. -/
def Obligations.OnlyTheHaltServiceHalts : Prop :=
  (∀ (g : RegFile) (m : Memory) (host : Console), (State.resetWith g m host).run = .running) ∧
  (∀ (i : Instr) (s t : State), exec i s = .next t → t.run = if i = .trap 0x25 then .halted else s.run) ∧
  ∀ s t : State, s.run = .halted → step s ≠ .next t

/-- The invariant every step keeps: the memory stays canonical (log 1) and COND stays exactly one flag (R27). -/
def Obligations.StepKeepsInvariant : Prop :=
  ∀ s t : State, s.inv = true → step s = .next t → t.inv = true

/-- 60_exceptions.md R170: no instruction has a fault outcome, and the two ways not to complete are to wait in GETC or IN for
input that never comes, and PUTS or PUTSP finding no terminator: then every cell its loop would read, for ever, is nonzero,
which takes an input with a character ready at every poll for ever. That the first is the fault stuckAwaitingInput (log 6) and the second the fault stringHang
(log 8), and the form of the input (log 4), are the model's. -/
def Obligations.EveryInstructionCompletesUnlessBlocked : Prop :=
  ∀ (i : Instr) (s : State), s.mem.wf = true → (∃ t, exec i s = .next t) ∨
    ((i = .trap 0x20 ∨ i = .trap 0x23) ∧ s.console.upcoming 0 = none ∧ ∃ b, exec i s = .fault (.stuckAwaitingInput b)) ∨
    ((i = .trap 0x22 ∨ i = .trap 0x24) ∧ s.console.endless ≠ [] ∧ none ∉ s.console.endless ∧
      (∀ n, (stringRead n (s.reg .r0) s).1 ≠ 0) ∧ exec i s = .fault .stringHang)

/-- A word stored by ST, STR or STI where the next instruction is fetched is the next instruction (20_memory.md R65). -/
def Obligations.NextFetchSeesTheStore : Prop :=
  ∀ (i : Instr) (sr : Reg) (s t : State),
    (∃ off, i = .st sr off) ∨ (∃ base off, i = .str sr base off) ∨ (∃ off, i = .sti sr off) →
    s.mem.wf = true → s.run = .running → exec i s = .next t → cellsStored i s = [t.pc] → t.pc ≠ 0xFE00 →
    step t = exec (decode (s.reg sr)) (t.setPc (t.pc + 1))

/-- The host's load of one instruction at PC (log 20: the model's): the very next step runs it. -/
def Obligations.StepRunsTheLoadedWord : Prop :=
  ∀ (s : State) (w : Word), s.mem.wf = true → s.pc ≠ 0xFE00 →
    step (s.withFetchWord 16 w.toNat) = exec (decode w) ((s.withFetchWord 16 w.toNat).setPc (s.pc + 1))

/-! ### Who writes and reads what, over all instructions -/

/-- 10_state.md R28: COND is the flag of the result's destination after its writers, unchanged after every other instruction;
and only BR reads it: every other instruction does the same whatever COND holds. -/
def Obligations.CondIsWrittenByResultsAndReadByBr : Prop :=
  ∀ (i : Instr) (s t : State), exec i s = .next t →
    (match flagSource i with
      | some r => FlagsOf (t.reg r) t.cond
      | none => t.cond = s.cond) ∧
    ((∀ nzp off, i ≠ .br nzp off) → ∀ c : Cond,
      exec i (s.setCond c) = .next (if (flagSource i).isSome then t else t.setCond c))

/-- The last column of R22: no instruction writes a register it does not name there. -/
def Obligations.RegistersWrittenAreThoseOfR22 : Prop :=
  ∀ (i : Instr) (s t : State), exec i s = .next t → SameRegsBut (regsWritten i) s t

/-- The middle column of R22: a register an instruction does not read there does not matter to it. -/
def Obligations.RegistersReadAreThoseOfR22 : Prop :=
  ∀ (i : Instr) (s t : State) (r : Reg) (v : Word), r ∉ regsRead i → exec i s = .next t →
    exec i (s.setReg r v) = .next (if r ∈ regsWritten i then t else t.setReg r v)

/-- The table of R25: where every instruction leaves PC. -/
def Obligations.PcAfterIsThatOfR25 : Prop :=
  ∀ (i : Instr) (s t : State), exec i s = .next t → t.pc = pcAfter i s

/-- The last column of 20_memory.md R51: an instruction changes no cell but the one it stores to, and, if it reads memory, KBSR
and KBDR by the poll (R54). -/
def Obligations.CellsWrittenAreThoseOfR51 : Prop :=
  ∀ (i : Instr) (s t : State), s.mem.wf = true → exec i s = .next t →
    SameCellsBut (cellsStored i s ++ if readsMemory i then [0xFE00, 0xFE02] else []) s t

/-- 10_state.md R40 to R43 and 60_exceptions.md R181: input is consumed in order, output is appended, only a TRAP writes
output, and only GETC, IN and memory reads touch the input. -/
def Obligations.ConsoleUsedOnlyByItsCallers : Prop :=
  ∀ (i : Instr) (s t : State), exec i s = .next t →
    ∃ (n : Nat) (written : List Byte), ConsumedInput n s.console t.console ∧
      t.console.output = s.console.output ++ written ∧ ((∀ v, i ≠ .trap v) → written = []) ∧
      (readsMemory i = false → i ≠ .trap 0x20 → i ≠ .trap 0x23 →
        t.console = { s.console with output := s.console.output ++ written })

/-- The same over a whole step, its fetch included (R42, R43): characters are consumed once, in order, and output only grows. -/
def Obligations.StepConsumesInputInOrder : Prop :=
  ∀ s t : State, step s = .next t →
    ∃ (n : Nat) (written : List Byte), ConsumedInput n s.console t.console ∧ t.console.output = s.console.output ++ written

/-! ### Flags and the read and write primitives -/

/-- 40_operate.md R100: setcc sets the one flag of the value and changes nothing else. -/
def Obligations.SetccSetsTheValuesFlag : Prop :=
  ∀ (v : Word) (s : State), setcc v s = s.setCond (setcc v s).cond ∧
    (v = 0 → (setcc v s).cond = 0b010) ∧ (v ≠ 0 → v.getLsbD 15 = true → (setcc v s).cond = 0b100) ∧
    (v ≠ 0 → v.getLsbD 15 = false → (setcc v s).cond = 0b001)

/-- 20_memory.md R53: MemWrite stores into the cell, at every address, KBSR and KBDR among them, with no side effect. -/
def Obligations.MemWriteStoresOneCell : Prop :=
  ∀ (a v : Word) (s : State), s.mem.wf = true → StoredAt a v s (memWrite a v s)

/-- R52 and R55: a read at any address but 0xFE00 answers the cell and changes nothing. -/
def Obligations.ReadsElsewhereArePlain : Prop :=
  ∀ (a : Word) (s : State), a ≠ 0xFE00 → memRead a s = (s.cell a, s)

/-- R54: a read of 0xFE00 polls first. With a character available, KBSR becomes 0x8000 (D5, log 10) and KBDR the character,
zero-extended and consumed; with none, KBSR becomes 0 and KBDR is unchanged. `arrive` is the host's delivery before the call
(log 4). -/
def Obligations.KbsrReadPolls : Prop :=
  ∀ s : State, s.mem.wf = true →
    let r := memRead 0xFE00 s
    r.1 = r.2.cell 0xFE00 ∧ SameRegsBut [] s r.2 ∧ SameCellsBut [0xFE00, 0xFE02] s r.2 ∧ r.2.pc = s.pc ∧
      r.2.cond = s.cond ∧ r.2.run = s.run ∧
      (s.console.arrive.pending = [] →
        r.1 = 0x0000 ∧ r.2.cell 0xFE02 = s.cell 0xFE02 ∧ r.2.console = s.console.arrive) ∧
      ∀ b rest, s.console.arrive.pending = b :: rest →
        r.1 = 0x8000 ∧ r.2.cell 0xFE02 = zext b ∧ r.2.console = { s.console.arrive with pending := rest }

/-! ### ADD, AND, NOT -/

/-- 40_operate.md R102, R105: ADD's sum modulo 2^16, its flags and its frame, in both forms, for every register. -/
def Obligations.AddWritesTheWrappedSum : Prop :=
  ∀ (s : State) (dr sr1 sr2 : Reg) (imm : Word),
    (∃ t, exec (.addReg dr sr1 sr2) s = .next t ∧
      ResultIn dr (BitVec.ofNat 16 ((s.reg sr1).toNat + (s.reg sr2).toNat)) s t) ∧
    ∃ t, exec (.addImm dr sr1 imm) s = .next t ∧ ResultIn dr (BitVec.ofNat 16 ((s.reg sr1).toNat + imm.toNat)) s t

/-- R103: AND's result, flags and frame, in both forms. -/
def Obligations.AndWritesTheCommonBits : Prop :=
  ∀ (s : State) (dr sr1 sr2 : Reg) (imm : Word),
    (∃ t, exec (.andReg dr sr1 sr2) s = .next t ∧ ResultIn dr (s.reg sr1 &&& s.reg sr2) s t) ∧
    ∃ t, exec (.andImm dr sr1 imm) s = .next t ∧ ResultIn dr (s.reg sr1 &&& imm) s t

/-- R104: NOT's result, every bit flipped, its flags and its frame. -/
def Obligations.NotWritesTheComplement : Prop :=
  ∀ (s : State) (dr sr : Reg),
    ∃ t, exec (.not dr sr) s = .next t ∧ ResultIn dr (BitVec.ofNat 16 (0xFFFF - (s.reg sr).toNat)) s t

/-! ### BR, JMP, JSR, JSRR -/

/-- 41_control.md R110: BR completes; taken exactly when the mask and COND share a bit, to PC plus the offset modulo 2^16, and
nothing else changes. -/
def Obligations.BrGoesToItsTargetWhenTheMaskMatches : Prop :=
  ∀ (s : State) (nzp : BitVec 3) (off : Word),
    ∃ t, exec (.br nzp off) s = .next t ∧
      WentTo (if nzp &&& s.cond = 0 then s.pc else BitVec.ofNat 16 (s.pc.toNat + off.toNat)) [] s t

/-- R110's corner cases: mask 000 is never taken, mask 111 always, and each mask bit is paired with one flag (the pairing is
the spec's general knowledge K4, log 18). COND's being one flag is part of `Obligations.StepKeepsInvariant`. -/
def Obligations.BrMaskBitsSelectTheFlags : Prop :=
  ∀ (s : State) (off : Word), exec (.br 0b000 off) s = .next s ∧
    (oneHot s.cond = true →
      exec (.br 0b111 off) s = .next (s.setPc (s.pc + off)) ∧
      exec (.br 0b100 off) s = .next (if s.cond = Cond.N then s.setPc (s.pc + off) else s) ∧
      exec (.br 0b010 off) s = .next (if s.cond = Cond.Z then s.setPc (s.pc + off) else s) ∧
      exec (.br 0b001 off) s = .next (if s.cond = Cond.P then s.setPc (s.pc + off) else s))

/-- R111, R112, R113: JMP, JSR and JSRR complete, with their targets, links and frames; JSRR R7 goes to the link just written. -/
def Obligations.JumpsGoToTheirTargets : Prop :=
  ∀ (s : State) (base : Reg) (off : Word),
    (∃ t, exec (.jmp base) s = .next t ∧ WentTo (s.reg base) [] s t) ∧
    (∃ t, exec (.jsr off) s = .next t ∧ t.reg .r7 = s.pc ∧
      WentTo (BitVec.ofNat 16 (s.pc.toNat + off.toNat)) [.r7] s t) ∧
    ∃ t, exec (.jsrr base) s = .next t ∧ t.reg .r7 = s.pc ∧
      WentTo (if base = .r7 then s.pc else s.reg base) [.r7] s t

/-- R111, R114: RET after a JSR, a JSRR or a TRAP goes to the instruction after it, and changes nothing but PC. -/
def Obligations.RetReturnsToTheCaller : Prop :=
  ∀ (i : Instr) (s t : State), (∃ off, i = .jsr off) ∨ (∃ base, i = .jsrr base) ∨ (∃ v, i = .trap v) →
    exec i s = .next t → exec (.jmp .r7) t = .next (t.setPc s.pc)

/-! ### Loads and stores -/

/-- 42_load_store.md R120 to R122, every form: LD, LDR and LDI complete, with what MemRead answers in the destination, its
flags, and no change but MemRead's own (`Obligations.KbsrReadPolls`, `Obligations.ReadsElsewhereArePlain`). -/
def Obligations.LoadsWriteWhatMemReadAnswers : Prop :=
  ∀ (s : State) (dr base : Reg) (off : Word),
    (∃ t, exec (.ld dr off) s = .next t ∧
      ResultIn dr (memRead (s.pc + off) s).1 (memRead (s.pc + off) s).2 t) ∧
    (∃ t, exec (.ldr dr base off) s = .next t ∧
      ResultIn dr (memRead (s.reg base + off) s).1 (memRead (s.reg base + off) s).2 t) ∧
    ∃ t, exec (.ldi dr off) s = .next t ∧
      let p := memRead (s.pc + off) s
      ResultIn dr (memRead p.1 p.2).1 (memRead p.1 p.2).2 t

/-- R120 to R122 away from KBSR: the destination gets the cell, and nothing else changes. -/
def Obligations.PlainLoadsWriteTheCell : Prop :=
  ∀ (s : State) (dr base : Reg) (off : Word),
    (s.pc + off ≠ 0xFE00 → ∃ t, exec (.ld dr off) s = .next t ∧ ResultIn dr (s.cell (s.pc + off)) s t) ∧
    (s.reg base + off ≠ 0xFE00 → ∃ t, exec (.ldr dr base off) s = .next t ∧ ResultIn dr (s.cell (s.reg base + off)) s t) ∧
    (s.pc + off ≠ 0xFE00 → s.cell (s.pc + off) ≠ 0xFE00 →
      ∃ t, exec (.ldi dr off) s = .next t ∧ ResultIn dr (s.cell (s.cell (s.pc + off))) s t)

/-- Reading the keyboard status through LDI (R121, R54; the source's test W7): ready and N with the character in KBDR, or not
ready and Z. The value 0x8000 is the spec's decision D5 (log 10). -/
def Obligations.LdiReadsTheKeyboardStatus : Prop :=
  ∀ (s : State) (dr : Reg) (off : Word), s.mem.wf = true → s.pc + off ≠ 0xFE00 → s.cell (s.pc + off) = 0xFE00 →
    ∃ t, exec (.ldi dr off) s = .next t ∧ SameRegsBut [dr] s t ∧ SameCellsBut [0xFE00, 0xFE02] s t ∧ t.pc = s.pc ∧
      (s.console.arrive.pending = [] → t.reg dr = 0 ∧ t.cond = Cond.Z ∧ t.cell 0xFE02 = s.cell 0xFE02) ∧
      ∀ b rest, s.console.arrive.pending = b :: rest →
        t.reg dr = 0x8000 ∧ t.cond = Cond.N ∧ t.cell 0xFE02 = zext b ∧ t.console.pending = rest

/-- R123: LEA completes with the address and its flags, and touches neither memory nor the console, even at 0xFE00. -/
def Obligations.LeaWritesTheAddress : Prop :=
  ∀ (s : State) (dr : Reg) (off : Word),
    ∃ t, exec (.lea dr off) s = .next t ∧ ResultIn dr (BitVec.ofNat 16 (s.pc.toNat + off.toNat)) s t

/-- R124, R126: ST and STR complete; the cell at the address holds the source register and nothing else changes. -/
def Obligations.StoresWriteTheirCell : Prop :=
  ∀ (s : State) (sr base : Reg) (off : Word), s.mem.wf = true →
    (∃ t, exec (.st sr off) s = .next t ∧ StoredAt (BitVec.ofNat 16 (s.pc.toNat + off.toNat)) (s.reg sr) s t) ∧
    ∃ t, exec (.str sr base off) s = .next t ∧
      StoredAt (BitVec.ofNat 16 ((s.reg base).toNat + off.toNat)) (s.reg sr) s t

/-- R125, every form: STI completes; the pointer is what MemRead answers, poll included, the cell there holds the source
register, and the rest is as MemRead left it. -/
def Obligations.StiStoresThroughThePointer : Prop :=
  ∀ (s : State) (sr : Reg) (off : Word), s.mem.wf = true →
    ∃ t, exec (.sti sr off) s = .next t ∧
      StoredAt (memRead (s.pc + off) s).1 (s.reg sr) (memRead (s.pc + off) s).2 t ∧
      (s.pc + off ≠ 0xFE00 → StoredAt (s.cell (s.pc + off)) (s.reg sr) s t)

/-! ### RES, RTI -/

/-- 44_reserved.md R160 to R162: RES and RTI complete and change nothing; a step on any of their words only advances PC. -/
def Obligations.ReservedOpcodesDoNothing : Prop :=
  ∀ s : State, exec .res s = .next s ∧ exec .rti s = .next s ∧
    (s.run = .running → s.pc ≠ 0xFE00 → field (s.cell s.pc) 12 4 = 0x8 ∨ field (s.cell s.pc) 12 4 = 0xD →
      step s = .next (s.setPc (s.pc + 1)))

/-! ### TRAP -/

/-- 43_trap.md R140, R141: whatever the vector, R7 is the incremented PC, PC stays, R1 to R6 stay; R0 and COND change only by
GETC and IN, the run state only by HALT; a service stores to no cell (PUTS and PUTSP may poll KBSR and KBDR). -/
def Obligations.TrapLinksAndChangesOnlyWhatItsServiceNames : Prop :=
  ∀ (v : BitVec 8) (s t : State), s.mem.wf = true → exec (.trap v) s = .next t →
    t.reg .r7 = s.pc ∧ t.pc = s.pc ∧ SameRegsBut [.r0, .r7] s t ∧
      (v ≠ 0x20 → v ≠ 0x23 → t.reg .r0 = s.reg .r0 ∧ t.cond = s.cond) ∧ (v ≠ 0x25 → t.run = s.run) ∧
      SameCellsBut (if v = 0x22 ∨ v = 0x24 then [0xFE00, 0xFE02] else []) s t

/-- R142: GETC completes when a character is pending or still comes; R0 is that character, zero-extended, the flag is never N,
no echo. -/
def Obligations.GetcReadsTheOldestCharacter : Prop :=
  ∀ (s : State) (c : Byte), s.console.upcoming 0 = some c →
    ∃ t, exec (.trap 0x20) s = .next t ∧ t.reg .r0 = zext c ∧ FlagsOf (zext c) t.cond ∧ t.cond ≠ Cond.N ∧
      t.reg .r7 = s.pc ∧ SameRegsBut [.r0, .r7] s t ∧ SameCellsBut [] s t ∧ t.pc = s.pc ∧ t.run = s.run ∧
      ConsumedInput 1 s.console t.console ∧ t.console.output = s.console.output

/-- R145: IN writes the prompt, reads the oldest character, echoes it, and leaves it in R0 with its flag (the order is the
spec's decision D15, log 16). -/
def Obligations.InPromptsReadsAndEchoes : Prop :=
  ∀ (s : State) (c : Byte), s.console.upcoming 0 = some c →
    ∃ t, exec (.trap 0x23) s = .next t ∧ t.reg .r0 = zext c ∧ FlagsOf (zext c) t.cond ∧ t.cond ≠ Cond.N ∧
      t.reg .r7 = s.pc ∧ SameRegsBut [.r0, .r7] s t ∧ SameCellsBut [] s t ∧ t.pc = s.pc ∧ t.run = s.run ∧
      ConsumedInput 1 s.console t.console ∧ t.console.output = s.console.output ++ Config.inPrompt ++ [c]

/-- R42, D11: with no character pending and none to come GETC and IN are stuck, with R7 written and IN's prompt out (the form of
the answer is the model's, log 6). -/
def Obligations.GetcAndInBlockWithoutInput : Prop :=
  ∀ s : State, s.console.upcoming 0 = none →
    (∃ b, exec (.trap 0x20) s = .fault (.stuckAwaitingInput b) ∧ b.reg .r7 = s.pc ∧ b.pc = s.pc ∧ b.run = s.run ∧
      SameRegsBut [.r7] s b ∧ b.console.output = s.console.output) ∧
    ∃ b, exec (.trap 0x23) s = .fault (.stuckAwaitingInput b) ∧ b.reg .r7 = s.pc ∧ b.pc = s.pc ∧ b.run = s.run ∧
      SameRegsBut [.r7] s b ∧ b.console.output = s.console.output ++ Config.inPrompt

/-- R143: OUT writes the low byte of R0. -/
def Obligations.OutWritesTheLowByte : Prop :=
  ∀ s : State, ∃ t, exec (.trap 0x21) s = .next t ∧
    t.console = { s.console with output := s.console.output ++ [BitVec.ofNat 8 (s.reg .r0).toNat] } ∧ t.reg .r7 = s.pc ∧
    SameRegsBut [.r7] s t ∧ SameCellsBut [] s t ∧ t.cond = s.cond ∧ t.pc = s.pc ∧ t.run = s.run

/-- R144 away from KBSR: PUTS completes, writes the low byte of each cell before the first zero cell, and changes nothing else;
the pointer wraps modulo 2^16 (the spec's decision D9, log 13). -/
def Obligations.PutsWritesTheString : Prop :=
  ∀ (s : State) (n : Nat), n < 65536 →
    (∀ k, k < n → s.cell (s.reg .r0 + BitVec.ofNat 16 k) ≠ 0) → s.cell (s.reg .r0 + BitVec.ofNat 16 n) = 0 →
    (∀ k, k ≤ n → s.reg .r0 + BitVec.ofNat 16 k ≠ 0xFE00) →
    ∃ t, exec (.trap 0x22) s = .next t ∧
      t.console = { s.console with
        output := s.console.output ++ (List.range n).map (fun k => lowByte (s.cell (s.reg .r0 + BitVec.ofNat 16 k))) } ∧ t.reg .r7 = s.pc ∧
      SameRegsBut [.r7] s t ∧ SameCellsBut [] s t ∧ t.cond = s.cond ∧ t.pc = s.pc ∧ t.run = s.run

/-- R146 away from KBSR: PUTSP completes and writes, for each cell before the first zero cell, its low byte and then its high
byte if that is not zero (wrap: log 13). -/
def Obligations.PutspWritesThePackedString : Prop :=
  ∀ (s : State) (n : Nat), n < 65536 →
    (∀ k, k < n → s.cell (s.reg .r0 + BitVec.ofNat 16 k) ≠ 0) → s.cell (s.reg .r0 + BitVec.ofNat 16 n) = 0 →
    (∀ k, k ≤ n → s.reg .r0 + BitVec.ofNat 16 k ≠ 0xFE00) →
    ∃ t, exec (.trap 0x24) s = .next t ∧
      t.console = { s.console with
        output := s.console.output ++ (List.range n).flatMap (fun k =>
          let c := s.cell (s.reg .r0 + BitVec.ofNat 16 k)
          lowByte c :: if highByte c = 0 then [] else [highByte c]) } ∧ t.reg .r7 = s.pc ∧
      SameRegsBut [.r7] s t ∧ SameCellsBut [] s t ∧ t.cond = s.cond ∧ t.pc = s.pc ∧ t.run = s.run

/-- R147: HALT writes HALT_MESSAGE, whatever it is (log 15), and halts; PC and R7 are the incremented PC, and no further step
exists. -/
def Obligations.HaltAnnouncesAndStops : Prop :=
  ∀ s : State, ∃ t, exec (.trap 0x25) s = .next t ∧ t.run = .halted ∧
    t.console = { s.console with output := s.console.output ++ Config.haltMessage } ∧ t.reg .r7 = s.pc ∧ t.pc = s.pc ∧ SameRegsBut [.r7] s t ∧
    SameCellsBut [] s t ∧ t.cond = s.cond ∧ ∀ u, step t ≠ .next u

/-- R148: any other vector runs no service: the one effect is the link. -/
def Obligations.OtherVectorsOnlyLink : Prop :=
  ∀ (v : BitVec 8) (s : State), v.toNat < 0x20 ∨ 0x25 < v.toNat →
    ∃ t, exec (.trap v) s = .next t ∧ t.reg .r7 = s.pc ∧ SameRegsBut [.r7] s t ∧ SameCellsBut [] s t ∧
      t.cond = s.cond ∧ SameControl s t

/-! ### Strings and their end -/

/-- R144 and R146, every form, KBSR on the path or not: PUTS and PUTSP write the cells their reads answer up to the first zero
one, read nothing after it, and leave what those reads left; with no zero cell among all the reads the step never ends
(the answer then, stringHang, and that a bounded loop decides it: log 8). Reads that poll: D8, log 9. -/
def Obligations.StringServicesEndExactlyAtAZeroCell : Prop :=
  ∀ (s : State) (v : BitVec 8), s.mem.wf = true → v = 0x22 ∨ v = 0x24 →
    (exec (.trap v) s = .fault .stringHang ↔ ∀ n, (stringRead n (s.reg .r0) s).1 ≠ 0) ∧
    ∀ n, (∀ k, k < n → (stringRead k (s.reg .r0) s).1 ≠ 0) → (stringRead n (s.reg .r0) s).1 = 0 →
      ∃ t, exec (.trap v) s = .next t ∧ t.reg .r7 = s.pc ∧ SameRegsBut [.r7] s t ∧ t.cond = s.cond ∧ t.pc = s.pc ∧
        t.run = s.run ∧ t.mem = (stringRead n (s.reg .r0) s).2.mem ∧
        t.console = { (stringRead n (s.reg .r0) s).2.console with
          output := s.console.output ++ (List.range n).flatMap (fun k =>
            let c := (stringRead k (s.reg .r0) s).1
            lowByte c :: if v = 0x22 ∨ highByte c = 0 then [] else [highByte c]) }

/-- The hang of R170 and R200 (U14) and its limit: an input with a nonzero character ready at every poll for ever, over a memory
with no zero cell but KBSR, makes PUTS and PUTSP hang wherever the string starts; with an input that ends, or one whose draws
again and again bring nothing, they always complete, since a poll then leaves a zero in KBSR. The draws of D16 are in the form
of log 4; reads that poll: D8, log 9; the hang's answer: log 8. -/
def Obligations.StringsHangOnlyOnEndlessInput : Prop :=
  ∀ (s : State) (v : BitVec 8), s.mem.wf = true → v = 0x22 ∨ v = 0x24 →
    (s.console.arrivals = [] → s.console.endless ≠ [] → (∀ d ∈ s.console.endless, ∃ b, d = some b ∧ b ≠ 0) →
      (∀ b ∈ s.console.pending, b ≠ 0) → (∀ a, a ≠ 0xFE00 → s.cell a ≠ 0) → exec (.trap v) s = .fault .stringHang) ∧
    (s.console.endless = [] ∨ none ∈ s.console.endless → ∃ t, exec (.trap v) s = .next t)

/-- 70_reset_and_hazards.md R200, for one step: it gives a next state, or the core is HALTED, stuck in GETC or IN, or in a hang
of PUTS or PUTSP; the model never refuses. The other hangs are runs without an end, and the host's termination is a run cut
short (log 19); the answers' form is the model's (log 6, log 7, log 8). -/
def Obligations.StepEndsAsR200Names : Prop :=
  ∀ s : State, s.mem.wf = true →
    let i := decode (fetch s).1
    (s.run = .running ∧ ∃ t, step s = .next t) ∨
    (s.run = .halted ∧ step s = .fault (.halted s)) ∨
    (s.run = .running ∧ (i = .trap 0x20 ∨ i = .trap 0x23) ∧ (fetch s).2.console.upcoming 0 = none ∧
      ∃ b, step s = .fault (.stuckAwaitingInput b)) ∨
    (s.run = .running ∧ (i = .trap 0x22 ∨ i = .trap 0x24) ∧
      (∀ n, (stringRead n ((fetch s).2.reg .r0) (fetch s).2).1 ≠ 0) ∧ step s = .fault .stringHang)

/-- R41, R54 and R199: polls may be answered in any pattern for ever. With the queue empty and the batches through, the read of
KBSR after `n` others is ready exactly where the draw at place `n`, going round, brings a character, and KBDR then holds it;
no number of polls ends this. The draws of D16 are in the form of log 4, the value 0x8000 is D5 (log 10). -/
def Obligations.RepeatingDrawsAnswerEveryPoll : Prop :=
  ∀ (s : State) (d : Option Byte) (n : Nat), s.mem.wf = true → s.console.pending = [] → s.console.arrivals = [] →
    s.console.endless[n % s.console.endless.length]? = some d →
    let r := memRead 0xFE00 (afterPolls n s)
    (d = none → r.1 = 0x0000 ∧ r.2.cell 0xFE02 = (afterPolls n s).cell 0xFE02) ∧
    (∀ b, d = some b → r.1 = 0x8000 ∧ r.2.cell 0xFE02 = zext b) ∧ r.2.console.pending = []
end

