-- ==== Sys2Proof/Laws/Decode.lean ====
section
/-! SUPPORT. The maps of the decoder and of the encoder are each other's inverses; fields of a word put together. -/

namespace Sys2Proof

@[simp] theorem Reg.ofBits_bits (r : Reg) : Reg.ofBits r.bits = r := by cases r <;> rfl

@[simp] theorem Reg.bits_ofBits (b : BitVec 3) : (Reg.ofBits b).bits = b := by revert b; decide

@[simp] theorem Opcode.ofBits_number (o : Opcode) : Opcode.ofBits o.number = o := by cases o <;> rfl

/-- Every opcode number is some opcode's own (R2, R80): no number falls through to another's opcode. -/
@[simp] theorem Opcode.number_ofBits (b : BitVec 4) : (Opcode.ofBits b).number = b := by revert b; decide

/-- Sign extension keeps the signed value (R11). -/
theorem sext_toInt {n : Nat} (hn : n ≤ 16) (v : BitVec n) : (sext v).toInt = v.toInt :=
  BitVec.toInt_signExtend_of_le hn

/-- A value in a field's range is the sign extension of its low bits (R74 to R77). -/
theorem sext_low {n : Nat} (hn : n < 16) {v : Word} (hlo : -2 ^ n ≤ v.toInt) (hhi : v.toInt < 2 ^ n) :
    sext (low (n + 1) v) = v := by
  apply BitVec.eq_of_toInt_eq
  rw [sext_toInt hn, low, BitVec.toInt_setWidth]
  have hd : ((2 ^ (n + 1) : Nat)) ∣ 2 ^ 16 := pow_dvd_pow 2 hn
  rw [← Int.bmod_bmod_of_dvd hd, ← BitVec.toInt_eq_toNat_bmod]
  have : ((2 ^ (n + 1) : Nat) : Int) = 2 * 2 ^ n := by push_cast; ring
  exact Int.bmod_eq_of_le_mul_two (by omega) (by omega)

/-! ### Fields of an encoded word -/

open BitVec (extractLsb'_append_eq_of_add_le extractLsb'_append_eq_of_le extractLsb'_append_eq_left extractLsb'_append_eq_right)

@[simp] theorem field_withOpcode_opcode (op : Opcode) (x : BitVec 12) : field (withOpcode op x) 12 4 = op.number :=
  extractLsb'_append_eq_left

theorem field_withOpcode (op : Opcode) (x : BitVec 12) {lo n : Nat} (h : lo + n ≤ 12) :
    field (withOpcode op x) lo n = x.extractLsb' lo n :=
  extractLsb'_append_eq_of_add_le h

@[simp] theorem at11_high (b : BitVec 3) (x : BitVec 9) : (at11 b x).extractLsb' 9 3 = b :=
  extractLsb'_append_eq_left

theorem at11_low (b : BitVec 3) (x : BitVec 9) {lo n : Nat} (h : lo + n ≤ 9) :
    (at11 b x).extractLsb' lo n = x.extractLsb' lo n :=
  extractLsb'_append_eq_of_add_le h

@[simp] theorem modeAt11_high (m : BitVec 1) (x : BitVec 11) : (modeAt11 m x).extractLsb' 11 1 = m :=
  extractLsb'_append_eq_left

@[simp] theorem modeAt11_low (m : BitVec 1) (x : BitVec 11) : (modeAt11 m x).extractLsb' 0 11 = x :=
  extractLsb'_append_eq_right

@[simp] theorem at8_high (b : BitVec 3) (x : BitVec 6) : (at8 b x).extractLsb' 6 3 = b :=
  extractLsb'_append_eq_left

theorem at8_low (b : BitVec 3) (x : BitVec 6) {lo n : Nat} (h : lo + n ≤ 6) :
    (at8 b x).extractLsb' lo n = x.extractLsb' lo n :=
  extractLsb'_append_eq_of_add_le h

@[simp] theorem modeAt5_high (m : BitVec 1) (x : BitVec 5) : (modeAt5 m x).extractLsb' 5 1 = m :=
  extractLsb'_append_eq_left

theorem modeAt5_low (m : BitVec 1) (x : BitVec 5) {lo n : Nat} (h : lo + n ≤ 5) :
    (modeAt5 m x).extractLsb' lo n = x.extractLsb' lo n :=
  extractLsb'_append_eq_of_add_le h

@[simp] theorem at2_low (b : BitVec 3) : (at2 b).extractLsb' 0 3 = b :=
  extractLsb'_append_eq_right

@[simp] theorem vectorBits_low (v : BitVec 8) : (vectorBits v).extractLsb' 0 8 = v :=
  extractLsb'_append_eq_right

/-! ### A word is the join of its fields -/

theorem append_extract {m k : Nat} (x : BitVec (m + k)) : x.extractLsb' k m ++ x.extractLsb' 0 k = x := by
  apply BitVec.eq_of_getLsbD_eq
  intro i hi
  rw [BitVec.getLsbD_append, BitVec.getLsbD_extractLsb', BitVec.getLsbD_extractLsb']
  by_cases h : i < k
  · simp [h]
  · have e : k + (i - k) = i := by omega
    have l : i - k < m := by omega
    simp [h, e, l]

theorem withOpcode_fields (w : Word) : withOpcode (Opcode.ofBits (field w 12 4)) (field w 0 12) = w := by
  rw [withOpcode, Opcode.number_ofBits]
  exact append_extract (m := 4) (k := 12) w

theorem at11_fields (x : BitVec 12) : at11 (x.extractLsb' 9 3) (x.extractLsb' 0 9) = x :=
  append_extract (m := 3) (k := 9) x

theorem modeAt11_fields (x : BitVec 12) : modeAt11 (x.extractLsb' 11 1) (x.extractLsb' 0 11) = x :=
  append_extract (m := 1) (k := 11) x

theorem at8_fields (x : BitVec 9) : at8 (x.extractLsb' 6 3) (x.extractLsb' 0 6) = x :=
  append_extract (m := 3) (k := 6) x

theorem modeAt5_fields (x : BitVec 6) : modeAt5 (x.extractLsb' 5 1) (x.extractLsb' 0 5) = x :=
  append_extract (m := 1) (k := 5) x

/-- The low bits of a sign-extended field are the field. -/
theorem low_sext {n : Nat} (hn : n ≤ 16) (v : BitVec n) : low n (sext v) = v := by
  apply BitVec.eq_of_getLsbD_eq
  intro i hi
  have : i < 16 := by omega
  rw [low, sext, BitVec.getLsbD_setWidth, BitVec.getLsbD_signExtend]
  simp [hi, this]

end Sys2Proof
end

