-- ==== Sys2Proof/Laws/State.lean ====
section
/-! SUPPORT. One lemma per field per update of State, and the register file's read-after-write. -/

namespace Sys2Proof.Machine

/-! ### Fields of an updated state -/

@[simp] theorem State.setReg_regs (s : State) (r : Reg) (v : Word) : (s.setReg r v).regs = s.regs.set r v := rfl
@[simp] theorem State.setReg_pc (s : State) (r : Reg) (v : Word) : (s.setReg r v).pc = s.pc := rfl
@[simp] theorem State.setReg_cond (s : State) (r : Reg) (v : Word) : (s.setReg r v).cond = s.cond := rfl
@[simp] theorem State.setReg_run (s : State) (r : Reg) (v : Word) : (s.setReg r v).run = s.run := rfl
@[simp] theorem State.setReg_mem (s : State) (r : Reg) (v : Word) : (s.setReg r v).mem = s.mem := rfl
@[simp] theorem State.setReg_console (s : State) (r : Reg) (v : Word) : (s.setReg r v).console = s.console := rfl
@[simp] theorem State.setReg_cell (s : State) (r : Reg) (v : Word) (a : Word) : (s.setReg r v).cell a = s.cell a := rfl

@[simp] theorem State.setPc_regs (s : State) (v : Word) : (s.setPc v).regs = s.regs := rfl
@[simp] theorem State.setPc_pc (s : State) (v : Word) : (s.setPc v).pc = v := rfl
@[simp] theorem State.setPc_cond (s : State) (v : Word) : (s.setPc v).cond = s.cond := rfl
@[simp] theorem State.setPc_run (s : State) (v : Word) : (s.setPc v).run = s.run := rfl
@[simp] theorem State.setPc_mem (s : State) (v : Word) : (s.setPc v).mem = s.mem := rfl
@[simp] theorem State.setPc_console (s : State) (v : Word) : (s.setPc v).console = s.console := rfl
@[simp] theorem State.setPc_reg (s : State) (v : Word) (q : Reg) : (s.setPc v).reg q = s.reg q := rfl
@[simp] theorem State.setPc_cell (s : State) (v : Word) (a : Word) : (s.setPc v).cell a = s.cell a := rfl

@[simp] theorem State.setCond_regs (s : State) (c : Cond) : (s.setCond c).regs = s.regs := rfl
@[simp] theorem State.setCond_pc (s : State) (c : Cond) : (s.setCond c).pc = s.pc := rfl
@[simp] theorem State.setCond_cond (s : State) (c : Cond) : (s.setCond c).cond = c := rfl
@[simp] theorem State.setCond_run (s : State) (c : Cond) : (s.setCond c).run = s.run := rfl
@[simp] theorem State.setCond_mem (s : State) (c : Cond) : (s.setCond c).mem = s.mem := rfl
@[simp] theorem State.setCond_console (s : State) (c : Cond) : (s.setCond c).console = s.console := rfl
@[simp] theorem State.setCond_reg (s : State) (c : Cond) (q : Reg) : (s.setCond c).reg q = s.reg q := rfl
@[simp] theorem State.setCond_cell (s : State) (c : Cond) (a : Word) : (s.setCond c).cell a = s.cell a := rfl

@[simp] theorem State.setRun_regs (s : State) (r : RunState) : (s.setRun r).regs = s.regs := rfl
@[simp] theorem State.setRun_pc (s : State) (r : RunState) : (s.setRun r).pc = s.pc := rfl
@[simp] theorem State.setRun_cond (s : State) (r : RunState) : (s.setRun r).cond = s.cond := rfl
@[simp] theorem State.setRun_run (s : State) (r : RunState) : (s.setRun r).run = r := rfl
@[simp] theorem State.setRun_mem (s : State) (r : RunState) : (s.setRun r).mem = s.mem := rfl
@[simp] theorem State.setRun_console (s : State) (r : RunState) : (s.setRun r).console = s.console := rfl
@[simp] theorem State.setRun_reg (s : State) (r : RunState) (q : Reg) : (s.setRun r).reg q = s.reg q := rfl
@[simp] theorem State.setRun_cell (s : State) (r : RunState) (a : Word) : (s.setRun r).cell a = s.cell a := rfl

@[simp] theorem State.setMem_regs (s : State) (m : Memory) : (s.setMem m).regs = s.regs := rfl
@[simp] theorem State.setMem_pc (s : State) (m : Memory) : (s.setMem m).pc = s.pc := rfl
@[simp] theorem State.setMem_cond (s : State) (m : Memory) : (s.setMem m).cond = s.cond := rfl
@[simp] theorem State.setMem_run (s : State) (m : Memory) : (s.setMem m).run = s.run := rfl
@[simp] theorem State.setMem_mem (s : State) (m : Memory) : (s.setMem m).mem = m := rfl
@[simp] theorem State.setMem_console (s : State) (m : Memory) : (s.setMem m).console = s.console := rfl
@[simp] theorem State.setMem_reg (s : State) (m : Memory) (q : Reg) : (s.setMem m).reg q = s.reg q := rfl

@[simp] theorem State.setConsole_regs (s : State) (c : Console) : (s.setConsole c).regs = s.regs := rfl
@[simp] theorem State.setConsole_pc (s : State) (c : Console) : (s.setConsole c).pc = s.pc := rfl
@[simp] theorem State.setConsole_cond (s : State) (c : Console) : (s.setConsole c).cond = s.cond := rfl
@[simp] theorem State.setConsole_run (s : State) (c : Console) : (s.setConsole c).run = s.run := rfl
@[simp] theorem State.setConsole_mem (s : State) (c : Console) : (s.setConsole c).mem = s.mem := rfl
@[simp] theorem State.setConsole_console (s : State) (c : Console) : (s.setConsole c).console = c := rfl
@[simp] theorem State.setConsole_reg (s : State) (c : Console) (q : Reg) : (s.setConsole c).reg q = s.reg q := rfl
@[simp] theorem State.setConsole_cell (s : State) (c : Console) (a : Word) : (s.setConsole c).cell a = s.cell a := rfl

@[simp] theorem State.setCell_regs (s : State) (a v : Word) : (s.setCell a v).regs = s.regs := rfl
@[simp] theorem State.setCell_pc (s : State) (a v : Word) : (s.setCell a v).pc = s.pc := rfl
@[simp] theorem State.setCell_cond (s : State) (a v : Word) : (s.setCell a v).cond = s.cond := rfl
@[simp] theorem State.setCell_run (s : State) (a v : Word) : (s.setCell a v).run = s.run := rfl
@[simp] theorem State.setCell_mem (s : State) (a v : Word) : (s.setCell a v).mem = s.mem.write a.toNat v := rfl
@[simp] theorem State.setCell_console (s : State) (a v : Word) : (s.setCell a v).console = s.console := rfl
@[simp] theorem State.setCell_reg (s : State) (a v : Word) (q : Reg) : (s.setCell a v).reg q = s.reg q := rfl

/-! ### Registers -/

theorem RegFile.get_set_same (f : RegFile) (r : Reg) (v : Word) : (f.set r v).get r = v := by cases r <;> rfl

theorem RegFile.get_set_other (f : RegFile) {r q : Reg} (v : Word) (h : q ≠ r) : (f.set r v).get q = f.get q := by
  cases r <;> cases q <;> first | rfl | exact absurd rfl h

@[simp] theorem State.setReg_reg_same (s : State) (r : Reg) (v : Word) : (s.setReg r v).reg r = v :=
  RegFile.get_set_same _ _ _

theorem State.setReg_reg_other (s : State) {r q : Reg} (v : Word) (h : q ≠ r) : (s.setReg r v).reg q = s.reg q :=
  RegFile.get_set_other _ _ h

/-! ### A result written with its flags (R101) -/

@[simp] theorem writeResult_reg_same (dr : Reg) (v : Word) (s : State) : (writeResult dr v s).reg dr = v :=
  State.setReg_reg_same s dr v

theorem writeResult_reg_other {dr q : Reg} (v : Word) (s : State) (h : q ≠ dr) : (writeResult dr v s).reg q = s.reg q :=
  State.setReg_reg_other s v h

@[simp] theorem writeResult_cond (dr : Reg) (v : Word) (s : State) : (writeResult dr v s).cond = condOf v := by
  simp [writeResult, setcc]

@[simp] theorem writeResult_pc (dr : Reg) (v : Word) (s : State) : (writeResult dr v s).pc = s.pc := rfl
@[simp] theorem writeResult_run (dr : Reg) (v : Word) (s : State) : (writeResult dr v s).run = s.run := rfl
@[simp] theorem writeResult_mem (dr : Reg) (v : Word) (s : State) : (writeResult dr v s).mem = s.mem := rfl
@[simp] theorem writeResult_console (dr : Reg) (v : Word) (s : State) : (writeResult dr v s).console = s.console := rfl
@[simp] theorem writeResult_cell (dr : Reg) (v : Word) (s : State) (a : Word) : (writeResult dr v s).cell a = s.cell a := rfl

/-! ### The link and the console's output -/

@[simp] theorem link_reg_r7 (s : State) : (link s).reg .r7 = s.pc := rfl
theorem link_reg_other (s : State) {q : Reg} (h : q ≠ .r7) : (link s).reg q = s.reg q := State.setReg_reg_other s _ h
@[simp] theorem link_pc (s : State) : (link s).pc = s.pc := rfl
@[simp] theorem link_cond (s : State) : (link s).cond = s.cond := rfl
@[simp] theorem link_run (s : State) : (link s).run = s.run := rfl
@[simp] theorem link_mem (s : State) : (link s).mem = s.mem := rfl
@[simp] theorem link_console (s : State) : (link s).console = s.console := rfl
@[simp] theorem link_cell (s : State) (a : Word) : (link s).cell a = s.cell a := rfl

@[simp] theorem conWrite_regs (bs : List Byte) (s : State) : (conWrite bs s).regs = s.regs := rfl
@[simp] theorem conWrite_pc (bs : List Byte) (s : State) : (conWrite bs s).pc = s.pc := rfl
@[simp] theorem conWrite_cond (bs : List Byte) (s : State) : (conWrite bs s).cond = s.cond := rfl
@[simp] theorem conWrite_run (bs : List Byte) (s : State) : (conWrite bs s).run = s.run := rfl
@[simp] theorem conWrite_mem (bs : List Byte) (s : State) : (conWrite bs s).mem = s.mem := rfl
@[simp] theorem conWrite_reg (bs : List Byte) (s : State) (q : Reg) : (conWrite bs s).reg q = s.reg q := rfl
@[simp] theorem conWrite_cell (bs : List Byte) (s : State) (a : Word) : (conWrite bs s).cell a = s.cell a := rfl
@[simp] theorem conWrite_pending (bs : List Byte) (s : State) : (conWrite bs s).console.pending = s.console.pending := rfl
@[simp] theorem conWrite_arrivals (bs : List Byte) (s : State) : (conWrite bs s).console.arrivals = s.console.arrivals := rfl
@[simp] theorem conWrite_endless (bs : List Byte) (s : State) : (conWrite bs s).console.endless = s.console.endless := rfl
@[simp] theorem conWrite_output (bs : List Byte) (s : State) : (conWrite bs s).console.output = s.console.output ++ bs := rfl

end Sys2Proof.Machine
end

