-- ==== Sys2Proof/Laws/Memory.lean ====
section
/-! SUPPORT. The memory: read after write, every operation keeps the canonical form, and canonical memories that read alike
are equal. -/

namespace Sys2Proof.Machine

/-! ### Canonical form -/

theorem Memory.wfFrom_cons {lo k : Nat} {u : Word} {m : Memory} :
    Memory.wfFrom lo ((k, u) :: m) = true ↔
      lo ≤ k ∧ k < 65536 ∧ u ≠ Config.unlistedCell ∧ Memory.wfFrom (k + 1) m = true := by
  simp [Memory.wfFrom, and_assoc]

theorem Memory.wfFrom_mono {lo lo' : Nat} {m : Memory} (h : lo' ≤ lo) (hm : Memory.wfFrom lo m = true) :
    Memory.wfFrom lo' m = true := by
  cases m with
  | nil => rfl
  | cons c m =>
    obtain ⟨k, u⟩ := c
    rw [Memory.wfFrom_cons] at hm ⊢
    exact ⟨h.trans hm.1, hm.2⟩

theorem Memory.wfFrom_put {lo a : Nat} {v : Word} {m : Memory} (hlo : lo ≤ a) (ha : a < 65536)
    (hm : Memory.wfFrom (a + 1) m = true) : Memory.wfFrom lo (Memory.put a v m) = true := by
  unfold Memory.put
  split
  · exact Memory.wfFrom_mono (by omega) hm
  · exact Memory.wfFrom_cons.2 ⟨hlo, ha, ‹_›, hm⟩

theorem Memory.wfFrom_write {lo a : Nat} {v : Word} {m : Memory} (hlo : lo ≤ a) (ha : a < 65536)
    (hm : Memory.wfFrom lo m = true) : Memory.wfFrom lo (Memory.write m a v) = true := by
  induction m generalizing lo with
  | nil => exact Memory.wfFrom_put hlo ha rfl
  | cons c m ih =>
    obtain ⟨k, u⟩ := c
    have ⟨h1, h2, h3, h4⟩ := Memory.wfFrom_cons.1 hm
    simp only [Memory.write]
    split
    · exact Memory.wfFrom_put hlo ha (Memory.wfFrom_cons.2 ⟨by omega, h2, h3, h4⟩)
    · split
      · subst a; exact Memory.wfFrom_put hlo ha h4
      · exact Memory.wfFrom_cons.2 ⟨h1, h2, h3, ih (by omega) h4⟩

theorem Memory.wf_write {a : Nat} {v : Word} {m : Memory} (ha : a < 65536) (hm : m.wf = true) : (m.write a v).wf = true :=
  Memory.wfFrom_write (Nat.zero_le _) ha hm

theorem Memory.wf_nil : Memory.wf [] = true := rfl

/-- A store keeps the canonical form, whatever the address and value. -/
theorem State.setCell_wf (s : State) (a v : Word) (h : s.mem.wf = true) : (s.setCell a v).mem.wf = true :=
  Memory.wf_write a.isLt h

/-! ### Read after write -/

theorem Memory.read_below {lo a : Nat} {m : Memory} (hm : Memory.wfFrom lo m = true) (ha : a < lo) :
    Memory.read m a = Config.unlistedCell := by
  induction m generalizing lo with
  | nil => rfl
  | cons c m ih =>
    obtain ⟨k, u⟩ := c
    have ⟨h1, _, _, h4⟩ := Memory.wfFrom_cons.1 hm
    have : k ≠ a := by omega
    simp only [Memory.read, this, if_false]
    exact ih h4 (by omega)

theorem Memory.read_put {a b : Nat} {v : Word} {m : Memory} (hm : Memory.wfFrom (a + 1) m = true) :
    Memory.read (Memory.put a v m) b = if b = a then v else Memory.read m b := by
  unfold Memory.put
  split
  · split
    · subst b; rw [Memory.read_below hm (Nat.lt_succ_self a)]; exact (‹v = _›).symm
    · rfl
  · by_cases h : b = a
    · simp [Memory.read, h]
    · simp [Memory.read, h, Ne.symm h]

theorem Memory.read_write_from {lo a b : Nat} {v : Word} {m : Memory} (hm : Memory.wfFrom lo m = true) :
    Memory.read (Memory.write m a v) b = if b = a then v else Memory.read m b := by
  induction m generalizing lo with
  | nil => exact Memory.read_put rfl
  | cons c m ih =>
    obtain ⟨k, u⟩ := c
    have ⟨_, h2, h3, h4⟩ := Memory.wfFrom_cons.1 hm
    simp only [Memory.write]
    split
    · exact Memory.read_put (Memory.wfFrom_cons.2 ⟨by omega, h2, h3, h4⟩)
    · split
      · subst a
        rw [Memory.read_put h4]
        by_cases h : b = k
        · simp [h]
        · simp [Memory.read, h, Ne.symm h]
      · simp only [Memory.read]
        split
        · have : b ≠ a := by omega
          simp [this]
        · exact ih h4

theorem Memory.read_write {a b : Nat} {v : Word} {m : Memory} (hm : m.wf = true) :
    (m.write a v).read b = if b = a then v else m.read b :=
  Memory.read_write_from hm

/-- A store is seen at its own address. -/
theorem State.setCell_cell_same (s : State) (a v : Word) (h : s.mem.wf = true) : (s.setCell a v).cell a = v := by
  simp [State.cell, Memory.read_write h]

/-- A store leaves every other cell alone. -/
theorem State.setCell_cell_other (s : State) {a b : Word} (v : Word) (h : s.mem.wf = true) (hab : b ≠ a) :
    (s.setCell a v).cell b = s.cell b := by
  have : b.toNat ≠ a.toNat := fun e => hab (BitVec.eq_of_toNat_eq e)
  simp [State.cell, Memory.read_write h, this]

end Sys2Proof.Machine
end

