-- ==== Sys2Proof/Laws/Ops.lean ====
section
/-! SUPPORT. What each shared operation can do, said once: the console transactions, the keyboard poll, MemRead, the fetch
and the step. -/

namespace Sys2Proof.Machine

/-! ### The console's input -/

@[simp] theorem inputAt_cons_zero (b : Byte) (l e : List Byte) : inputAt (b :: l) e 0 = some b := rfl
@[simp] theorem inputAt_cons_succ (b : Byte) (l e : List Byte) (k : Nat) : inputAt (b :: l) e (k + 1) = inputAt l e k := rfl

@[simp] theorem drawn_nil : drawn [] = [] := rfl
@[simp] theorem drawn_none (l : List (Option Byte)) : drawn (none :: l) = drawn l := rfl
@[simp] theorem drawn_some (b : Byte) (l : List (Option Byte)) : drawn (some b :: l) = b :: drawn l := rfl

@[simp] theorem drawn_append (l m : List (Option Byte)) : drawn (l ++ m) = drawn l ++ drawn m := by
  induction l with
  | nil => rfl
  | cons d l ih => cases d <;> simp [ih]

/-- Taking the first character of an endless input to its back moves every place by one. -/
theorem inputAt_rotate (b : Byte) (r : List Byte) (k : Nat) : inputAt [] (r ++ [b]) k = inputAt [] (b :: r) (k + 1) := by
  simp only [inputAt, List.length_append, List.length_cons, List.length_nil, Nat.zero_add]
  rw [← Nat.mod_add_mod k]
  have hlt : k % (r.length + 1) < r.length + 1 := Nat.mod_lt k (Nat.succ_pos r.length)
  by_cases h : k % (r.length + 1) = r.length
  · simp [h]
  · have hr : k % (r.length + 1) < r.length := by omega
    rw [Nat.mod_eq_of_lt (by omega : k % (r.length + 1) + 1 < r.length + 1), List.getElem?_append_left hr,
      List.getElem?_cons_succ]

/-- The first of an endless input is the same character whether it still stands there or has just reached the queue. -/
theorem inputAt_append_rotate (l : List Byte) (b : Byte) (r : List Byte) (k : Nat) :
    inputAt (l ++ [b]) (r ++ [b]) k = inputAt l (b :: r) k := by
  induction l generalizing k with
  | nil => cases k with
    | zero => simp [inputAt]
    | succ k => exact inputAt_rotate b r k
  | cons c l ih => cases k with
    | zero => rfl
    | succ k => exact ih k

/-- The same for several characters. -/
theorem inputAt_append_rotate_list (l x y : List Byte) (k : Nat) : inputAt (l ++ x) (y ++ x) k = inputAt l (x ++ y) k := by
  induction x generalizing l y with
  | nil => simp
  | cons b x ih =>
    have := ih (l ++ [b]) (y ++ [b])
    rw [← List.append_assoc x, inputAt_append_rotate] at this
    simpa using this

/-- No first character means no character at all. -/
theorem inputAt_zero_none {l e : List Byte} : inputAt l e 0 = none ↔ l = [] ∧ e = [] := by
  cases l with
  | nil => simp [inputAt]
  | cons b l => simp [inputAt]

/-- The host's delivery leaves the characters to come as they are. -/
theorem Console.arrive_upcoming (c : Console) (k : Nat) : c.arrive.upcoming k = c.upcoming k := by
  unfold Console.arrive
  split
  · rename_i h; simp [Console.upcoming, h]
  · rename_i h h'; have := inputAt_append_rotate_list c.pending
    simp only [Console.upcoming, h, h', List.flatten_nil, List.append_nil, drawn_append]
    rename_i d rest
    cases d with
    | none => simp
    | some b => simpa using this [b] (drawn rest) k
  · rfl

/-- Taking the first pending character. -/
theorem Console.consumed_pending {c : Console} {b : Byte} {rest : List Byte} (h : c.pending = b :: rest) :
    c.upcoming 0 = some b ∧ ConsumedInput 1 c { c with pending := rest } := by
  refine ⟨?_, fun k => ?_⟩ <;> simp [Console.upcoming, h]

theorem ConsumedInput.refl (c : Console) : ConsumedInput 0 c c := fun _ => rfl

theorem ConsumedInput.trans {m n : Nat} {c d e : Console} (h : ConsumedInput m c d) (h' : ConsumedInput n d e) :
    ConsumedInput (m + n) c e := fun k => by rw [h' k, h (k + n), Nat.add_assoc, Nat.add_comm n m]

theorem Console.arrive_output (c : Console) : c.arrive.output = c.output := by
  unfold Console.arrive
  split <;> rfl

/-- The first character to come is the first of all the batches' characters. -/
theorem firstArrival_some {l : List (List Byte)} {b : Byte} {rest : List Byte} {later : List (List Byte)}
    (h : firstArrival l = some (b, rest, later)) : l.flatten = b :: (rest ++ later.flatten) := by
  induction l with
  | nil => cases h
  | cons x l ih =>
    cases x with
    | nil => exact ih h
    | cons c cs => cases h; rfl

/-- No character comes exactly when every batch is empty. -/
theorem firstArrival_none {l : List (List Byte)} : firstArrival l = none ↔ l.flatten = [] := by
  induction l with
  | nil => simp [firstArrival]
  | cons x l ih =>
    cases x with
    | nil => exact ih
    | cons c cs => simp [firstArrival]

/-- The first of the repeating draws' characters, and those characters with it at the back. -/
theorem nextDraw_some {w l e : List (Option Byte)} {b : Byte} (hw : drawn w = [])
    (h : nextDraw w l = some (b, e)) : ∃ r, drawn l = b :: r ∧ drawn e = r ++ [b] := by
  induction l generalizing w with
  | nil => cases h
  | cons d l ih =>
    cases d with
    | none =>
      obtain ⟨r, h1, h2⟩ := ih (w := w ++ [none]) (by simpa using hw) h
      exact ⟨r, h1, h2⟩
    | some c => cases h; exact ⟨drawn l, rfl, by simp [hw]⟩

/-- No character is drawn exactly when no draw has one. -/
theorem nextDraw_none {w l : List (Option Byte)} : nextDraw w l = none ↔ drawn l = [] := by
  induction l generalizing w with
  | nil => simp [nextDraw]
  | cons d l ih =>
    cases d with
    | none => simpa [nextDraw] using ih
    | some c => simp [nextDraw]

/-- ConRead with a character pending or to come: it is the first of the input, and is consumed. -/
theorem conRead_some {s : State} {c : Byte} (h : s.console.upcoming 0 = some c) :
    ∃ k : Console, conRead s = some (c, s.setConsole k) ∧ ConsumedInput 1 s.console k ∧ k.output = s.console.output := by
  unfold conRead
  cases hp : s.console.pending with
  | cons b r =>
    obtain ⟨h0, h1⟩ := Console.consumed_pending hp
    obtain rfl : b = c := Option.some.inj (h0.symm.trans h)
    exact ⟨_, rfl, h1, rfl⟩
  | nil =>
    cases hf : firstArrival s.console.arrivals with
    | some q =>
      obtain ⟨b, r, l⟩ := q
      have hs := firstArrival_some hf
      obtain rfl : b = c := by simpa [Console.upcoming, hp, hs] using h
      exact ⟨{ s.console with pending := r, arrivals := l }, by simp,
        fun k => by simp [Console.upcoming, hp, hs], rfl⟩
    | none =>
      have hs := firstArrival_none.1 hf
      cases hd : nextDraw [] s.console.endless with
      | none => simp [Console.upcoming, hp, hs, nextDraw_none.1 hd, inputAt] at h
      | some q =>
        obtain ⟨b, e⟩ := q
        obtain ⟨r, h1, h2⟩ := nextDraw_some rfl hd
        obtain rfl : b = c := by simpa [Console.upcoming, hp, hs, h1, inputAt] using h
        exact ⟨{ s.console with arrivals := [], endless := e }, by simp,
          fun k => by simp [Console.upcoming, hp, hs, h1, h2, inputAt_rotate], rfl⟩

/-- ConRead with no character pending and none to come answers none. -/
theorem conRead_none {s : State} (h : s.console.upcoming 0 = none) : conRead s = none := by
  obtain ⟨h1, h2⟩ := inputAt_zero_none.1 h
  obtain ⟨h3, h4⟩ := List.append_eq_nil_iff.1 h1
  unfold conRead
  rw [h3, firstArrival_none.2 h4]
  rw [nextDraw_none.2 h2]

/-! ### The flags (R100) -/

/-- The flag `condOf` answers is the value's. -/
theorem condOf_flagsOf (v : Word) : FlagsOf v (condOf v) := by
  refine ⟨fun h => by simp [condOf, h], fun h => ?_, fun h h' => ?_⟩
  · have : v ≠ 0 := by rintro rfl; simp at h
    have hm : v.msb = true := by rw [BitVec.msb_eq_getLsbD_last]; exact h
    rw [condOf, if_neg this, if_pos hm]
  · have hm : ¬ v.msb = true := by rw [BitVec.msb_eq_getLsbD_last]; simpa using h'
    rw [condOf, if_neg h, if_neg hm]

/-- COND after setcc is one flag (R27). -/
theorem oneHot_condOf (v : Word) : oneHot (condOf v) = true := by
  unfold condOf
  split
  · rfl
  · split <;> rfl

/-- What writing a result with its flags does, frame included. -/
theorem writeResult_resultIn (dr : Reg) (v : Word) (s : State) : ResultIn dr v s (writeResult dr v s) :=
  ⟨writeResult_reg_same dr v s, by simpa using condOf_flagsOf v,
    fun _ h => writeResult_reg_other v s (by simpa using h), fun _ _ => rfl, rfl, rfl, rfl⟩

/-! ### The keyboard poll (R54) -/

/-- The poll by cases on the queue after the host's next batch: a character is taken into KBDR, or KBSR is cleared. -/
theorem keyboardPoll_eq (s : State) :
    keyboardPoll s =
      match s.console.arrive.pending with
      | b :: rest =>
        ((s.setConsole { s.console.arrive with pending := rest }).setCell kbsrAddr kbsrReady).setCell kbdrAddr (zext b)
      | [] => (s.setConsole s.console.arrive).setCell kbsrAddr 0x0000 := by
  unfold keyboardPoll conAvail
  cases h : s.console.arrive.pending <;> (simp [conRead, h]; try rfl)

@[simp] theorem keyboardPoll_regs (s : State) : (keyboardPoll s).regs = s.regs := by
  rw [keyboardPoll_eq]; split <;> rfl

@[simp] theorem keyboardPoll_reg (s : State) (q : Reg) : (keyboardPoll s).reg q = s.reg q := by
  simp [State.reg]

@[simp] theorem keyboardPoll_pc (s : State) : (keyboardPoll s).pc = s.pc := by
  rw [keyboardPoll_eq]; split <;> rfl

@[simp] theorem keyboardPoll_cond (s : State) : (keyboardPoll s).cond = s.cond := by
  rw [keyboardPoll_eq]; split <;> rfl

@[simp] theorem keyboardPoll_run (s : State) : (keyboardPoll s).run = s.run := by
  rw [keyboardPoll_eq]; split <;> rfl

@[simp] theorem keyboardPoll_output (s : State) : (keyboardPoll s).console.output = s.console.output := by
  rw [keyboardPoll_eq]; split <;> simp [Console.arrive_output]

theorem keyboardPoll_wf (s : State) (h : s.mem.wf = true) : (keyboardPoll s).mem.wf = true := by
  rw [keyboardPoll_eq]
  split
  · exact State.setCell_wf _ _ _ (State.setCell_wf _ _ _ h)
  · exact State.setCell_wf _ _ _ h

/-- The poll changes no cell but KBSR and KBDR. -/
theorem keyboardPoll_cell_other (s : State) (h : s.mem.wf = true) {a : Word} (h1 : a ≠ kbsrAddr) (h2 : a ≠ kbdrAddr) :
    (keyboardPoll s).cell a = s.cell a := by
  rw [keyboardPoll_eq]
  split
  · exact (State.setCell_cell_other _ _ (State.setCell_wf _ _ _ h) h2).trans (State.setCell_cell_other _ _ h h1)
  · exact State.setCell_cell_other _ _ h h1

/-! ### MemRead (R52) -/

/-- A read of any address but KBSR is the cell and changes nothing. -/
theorem memRead_plain {a : Word} (h : a ≠ kbsrAddr) (s : State) : memRead a s = (s.cell a, s) := by
  simp [memRead, h]

/-- A read of KBSR polls first. -/
theorem memRead_kbsr (s : State) : memRead kbsrAddr s = ((keyboardPoll s).cell kbsrAddr, keyboardPoll s) := by
  simp [memRead]

/-- The state after a read is the state, or the state polled. -/
theorem memRead_state (a : Word) (s : State) : (memRead a s).2 = s ∨ (memRead a s).2 = keyboardPoll s := by
  by_cases h : a = kbsrAddr
  · exact .inr (by rw [h, memRead_kbsr])
  · exact .inl (by rw [memRead_plain h])

@[simp] theorem memRead_regs (a : Word) (s : State) : (memRead a s).2.regs = s.regs := by
  rcases memRead_state a s with h | h <;> simp [h]

@[simp] theorem memRead_reg (a : Word) (s : State) (q : Reg) : (memRead a s).2.reg q = s.reg q := by
  simp [State.reg]

@[simp] theorem memRead_pc (a : Word) (s : State) : (memRead a s).2.pc = s.pc := by
  rcases memRead_state a s with h | h <;> simp [h]

@[simp] theorem memRead_cond (a : Word) (s : State) : (memRead a s).2.cond = s.cond := by
  rcases memRead_state a s with h | h <;> simp [h]

@[simp] theorem memRead_run (a : Word) (s : State) : (memRead a s).2.run = s.run := by
  rcases memRead_state a s with h | h <;> simp [h]

@[simp] theorem memRead_output (a : Word) (s : State) : (memRead a s).2.console.output = s.console.output := by
  rcases memRead_state a s with h | h <;> simp [h]

theorem memRead_wf (a : Word) (s : State) (hs : s.mem.wf = true) : (memRead a s).2.mem.wf = true := by
  rcases memRead_state a s with h | h <;> rw [h]
  · exact hs
  · exact keyboardPoll_wf s hs

theorem memRead_cell_other (b : Word) (s : State) (hs : s.mem.wf = true) {a : Word} (h1 : a ≠ kbsrAddr)
    (h2 : a ≠ kbdrAddr) : (memRead b s).2.cell a = s.cell a := by
  rcases memRead_state b s with h | h <;> rw [h]
  exact keyboardPoll_cell_other s hs h1 h2

/-! ### The fetch and the step (R31) -/

/-- Away from KBSR the fetch reads the cell at PC and advances PC. -/
theorem fetch_plain {s : State} (h : s.pc ≠ kbsrAddr) : fetch s = (s.cell s.pc, s.setPc (s.pc + 1)) := by
  simp [fetch, memRead_plain h]

/-- A step answers a next state exactly when the core runs and the fetched instruction does. -/
theorem step_next_iff {s t : State} :
    step s = .next t ↔ s.run = .running ∧ exec (decode (fetch s).1) (fetch s).2 = .next t := by
  unfold step
  cases s.run <;> simp

end Sys2Proof.Machine
end

