-- ==== Sys2Proof/Laws/PerInstr.lean ====
section
/-! SUPPORT. One family of statements per constructor, about the encoding: the word an instruction is encoded as has the
opcode number that the map of R80 gives its mnemonic. -/

namespace Sys2Proof.Laws

/-- The number of an instruction's mnemonic in R80, written from the table and not from the decoder. -/
def opcodeNumber : Instr → Nat
  | .br _ _ => 0
  | .addReg _ _ _ => 1
  | .addImm _ _ _ => 1
  | .ld _ _ => 2
  | .st _ _ => 3
  | .jsr _ => 4
  | .jsrr _ => 4
  | .andReg _ _ _ => 5
  | .andImm _ _ _ => 5
  | .ldr _ _ _ => 6
  | .str _ _ _ => 7
  | .rti => 8
  | .not _ _ => 9
  | .ldi _ _ => 10
  | .sti _ _ => 11
  | .jmp _ => 12
  | .res => 13
  | .lea _ _ => 14
  | .trap _ => 15

/-- Bits 15..12 of the encoded word are that number, whatever the operands. -/
def EncodesOpcode.Statement (i : Instr) : Prop := (field (encode i) 12 4).toNat = opcodeNumber i

theorem EncodesOpcode.br (nzp : BitVec 3) (off : Word) : EncodesOpcode.Statement (.br nzp off) := by
  simp [EncodesOpcode.Statement, encode, opcodeNumber, Opcode.number]

theorem EncodesOpcode.addReg (dr : Reg) (sr1 : Reg) (sr2 : Reg) : EncodesOpcode.Statement (.addReg dr sr1 sr2) := by
  simp [EncodesOpcode.Statement, encode, opcodeNumber, Opcode.number]

theorem EncodesOpcode.addImm (dr : Reg) (sr1 : Reg) (imm : Word) : EncodesOpcode.Statement (.addImm dr sr1 imm) := by
  simp [EncodesOpcode.Statement, encode, opcodeNumber, Opcode.number]

theorem EncodesOpcode.ld (dr : Reg) (off : Word) : EncodesOpcode.Statement (.ld dr off) := by
  simp [EncodesOpcode.Statement, encode, opcodeNumber, Opcode.number]

theorem EncodesOpcode.st (sr : Reg) (off : Word) : EncodesOpcode.Statement (.st sr off) := by
  simp [EncodesOpcode.Statement, encode, opcodeNumber, Opcode.number]

theorem EncodesOpcode.jsr (off : Word) : EncodesOpcode.Statement (.jsr off) := by
  simp [EncodesOpcode.Statement, encode, opcodeNumber, Opcode.number]

theorem EncodesOpcode.jsrr (base : Reg) : EncodesOpcode.Statement (.jsrr base) := by
  simp [EncodesOpcode.Statement, encode, opcodeNumber, Opcode.number]

theorem EncodesOpcode.andReg (dr : Reg) (sr1 : Reg) (sr2 : Reg) : EncodesOpcode.Statement (.andReg dr sr1 sr2) := by
  simp [EncodesOpcode.Statement, encode, opcodeNumber, Opcode.number]

theorem EncodesOpcode.andImm (dr : Reg) (sr1 : Reg) (imm : Word) : EncodesOpcode.Statement (.andImm dr sr1 imm) := by
  simp [EncodesOpcode.Statement, encode, opcodeNumber, Opcode.number]

theorem EncodesOpcode.ldr (dr : Reg) (base : Reg) (off : Word) : EncodesOpcode.Statement (.ldr dr base off) := by
  simp [EncodesOpcode.Statement, encode, opcodeNumber, Opcode.number]

theorem EncodesOpcode.str (sr : Reg) (base : Reg) (off : Word) : EncodesOpcode.Statement (.str sr base off) := by
  simp [EncodesOpcode.Statement, encode, opcodeNumber, Opcode.number]

theorem EncodesOpcode.rti : EncodesOpcode.Statement (.rti) := by
  simp [EncodesOpcode.Statement, encode, opcodeNumber, Opcode.number]

theorem EncodesOpcode.not (dr : Reg) (sr : Reg) : EncodesOpcode.Statement (.not dr sr) := by
  simp [EncodesOpcode.Statement, encode, opcodeNumber, Opcode.number]

theorem EncodesOpcode.ldi (dr : Reg) (off : Word) : EncodesOpcode.Statement (.ldi dr off) := by
  simp [EncodesOpcode.Statement, encode, opcodeNumber, Opcode.number]

theorem EncodesOpcode.sti (sr : Reg) (off : Word) : EncodesOpcode.Statement (.sti sr off) := by
  simp [EncodesOpcode.Statement, encode, opcodeNumber, Opcode.number]

theorem EncodesOpcode.jmp (base : Reg) : EncodesOpcode.Statement (.jmp base) := by
  simp [EncodesOpcode.Statement, encode, opcodeNumber, Opcode.number]

theorem EncodesOpcode.res : EncodesOpcode.Statement (.res) := by
  simp [EncodesOpcode.Statement, encode, opcodeNumber, Opcode.number]

theorem EncodesOpcode.lea (dr : Reg) (off : Word) : EncodesOpcode.Statement (.lea dr off) := by
  simp [EncodesOpcode.Statement, encode, opcodeNumber, Opcode.number]

theorem EncodesOpcode.trap (vect : BitVec 8) : EncodesOpcode.Statement (.trap vect) := by
  simp [EncodesOpcode.Statement, encode, opcodeNumber, Opcode.number]

end Sys2Proof.Laws
end

