-- ==== Sys2Proof/Laws/Strings.lean ====
section
/-! SUPPORT. What the loop of PUTS and PUTSP can do (43_trap.md R144, R146): it ends at the first zero cell it reads, and where
it reads none its bound is reached exactly because it never ends. -/

namespace Sys2Proof.Machine

/-- With STRING_READS_POLL the strings' read is MemRead (D8). -/
theorem strRead_eq (a : Word) (s : State) : strRead a s = memRead a s := rfl

/-- One turn of the loop. -/
theorem stringLoop_succ (emit : Word → List Byte) (fuel : Nat) (a : Word) (s : State) :
    stringLoop emit (fuel + 1) a s =
      if (memRead a s).1 = 0 then .next (memRead a s).2
      else stringLoop emit fuel (a + 1) (conWrite (emit (memRead a s).1) (memRead a s).2) := rfl

/-- Whatever a state relation that every read and every write keeps, a string service that ends keeps it. -/
theorem stringLoop_keeps {emit : Word → List Byte} (Rel : State → State → Prop)
    (trans : ∀ s t u, Rel s t → Rel t u → Rel s u) (read : ∀ a s, Rel s (memRead a s).2)
    (write : ∀ bs s, Rel s (conWrite bs s)) {fuel : Nat} {a : Word} {s t : State}
    (h : stringLoop emit fuel a s = .next t) : Rel s t := by
  induction fuel generalizing a s with
  | zero => cases h
  | succ fuel ih =>
    rw [stringLoop_succ] at h
    by_cases hz : (memRead a s).1 = 0
    · rw [if_pos hz] at h; cases h; exact read a s
    · rw [if_neg hz] at h; exact trans _ _ _ (read a s) (trans _ _ _ (write _ _) (ih h))

/-- The loop ends within a number of cells. -/
def StringEnds (emit : Word → List Byte) (fuel : Nat) (a : Word) (s : State) : Prop :=
  ∃ t, stringLoop emit fuel a s = .next t

/-- The loop never ends: no number of cells is enough. -/
def StringHangs (emit : Word → List Byte) (a : Word) (s : State) : Prop :=
  ∀ fuel, stringLoop emit fuel a s = .fault .stringHang

section Turn
variable {emit : Word → List Byte} {fuel : Nat} {a : Word} {s : State}

/-- The state after a turn that read `c`. -/
def afterTurn (emit : Word → List Byte) (a : Word) (s : State) : State :=
  conWrite (emit (memRead a s).1) (memRead a s).2

theorem StringEnds.of_zero (h : (memRead a s).1 = 0) : StringEnds emit (fuel + 1) a s := ⟨_, if_pos h⟩

/-- A loop whose rest ends, ends, whatever this turn reads. -/
theorem StringEnds.turn (h : StringEnds emit fuel (a + 1) (afterTurn emit a s)) : StringEnds emit (fuel + 1) a s := by
  by_cases hz : (memRead a s).1 = 0
  · exact .of_zero hz
  · obtain ⟨t, ht⟩ := h
    exact ⟨t, by rw [stringLoop_succ, if_neg hz]; exact ht⟩

theorem StringHangs.turn (hz : (memRead a s).1 ≠ 0) (h : StringHangs emit (a + 1) (afterTurn emit a s)) :
    StringHangs emit a s := by
  intro fuel
  cases fuel with
  | zero => rfl
  | succ n => rw [stringLoop_succ, if_neg hz]; exact h n

theorem afterTurn_wf (h : s.mem.wf = true) : (afterTurn emit a s).mem.wf = true := memRead_wf a s h

theorem afterTurn_cell_other (hs : s.mem.wf = true) {x : Word} (h1 : x ≠ kbsrAddr) (h2 : x ≠ kbdrAddr) :
    (afterTurn emit a s).cell x = s.cell x := memRead_cell_other a s hs h1 h2

/-- A turn away from KBSR only writes output. -/
theorem afterTurn_plain (h : a ≠ kbsrAddr) : afterTurn emit a s = conWrite (emit (s.cell a)) s := by
  rw [afterTurn, memRead_plain h]

end Turn

/-! ### Distances -/

/-- How many cells after `a` the pointer comes to `x`. -/
@[irreducible] def cellsTo (x a : Word) : Nat := (x - a).toNat

theorem cellsTo_lt (x a : Word) : cellsTo x a < 65536 := by
  unfold cellsTo
  exact (x - a).isLt

theorem cellsTo_self (x : Word) : cellsTo x x = 0 := by
  unfold cellsTo
  simp

theorem cellsTo_succ {x a : Word} (h : a ≠ x) : cellsTo x (a + 1) + 1 = cellsTo x a := by
  unfold cellsTo
  have hx := x.isLt
  have ha := a.isLt
  have : a.toNat ≠ x.toNat := fun e => h (BitVec.eq_of_toNat_eq e)
  have e : (a + 1).toNat = (a.toNat + 1) % 65536 := BitVec.toNat_add a 1
  rw [BitVec.toNat_sub, BitVec.toNat_sub, e]
  omega

theorem cellsTo_eq_zero {x a : Word} (h : cellsTo x a = 0) : a = x := by
  by_cases e : a = x
  · exact e
  · have := cellsTo_succ e; omega

/-- One turn away from the cell aimed at uses one of the cells counted. -/
theorem count_turn {x d d' c n : Nat} (hd : d' + 1 = d) (h : x + d + c < n + 1) : x + d' + c < n := by omega

/-- A turn at the cell aimed at uses a round of `r` of the cells counted. -/
theorem count_round {r x y d d' c n : Nat} (hx : y + 1 ≤ x) (hd : d' < r) (h : x * r + d + c < n + 1) :
    y * r + d' + c < n := by
  have := Nat.mul_le_mul_right r hx
  rw [Nat.succ_mul] at this
  omega

theorem count_le {r x y d c n : Nat} (hx : y ≤ x) (h : x * r + d + c < n) : y * r + d + c < n := by
  have := Nat.mul_le_mul_right r hx
  omega

theorem count_bounds {r x d c n : Nat} (h : (x + 1) * r + d + c < n) : x * r + d + c < n ∧ r < n := by
  rw [Nat.succ_mul] at h
  omega

theorem count_fuel {r x d : Nat} (hd : d < r) (hr : 2 ≤ r) : (x + 1) * r + d + 2 < (x + 3) * r := by
  rw [Nat.add_mul x 3, Nat.succ_mul]
  omega

/-- A zero cell that no poll writes ends the loop. -/
theorem StringEnds.of_zero_cell (emit : Word → List Byte) {x : Word} (h1 : x ≠ kbsrAddr) (h2 : x ≠ kbdrAddr) (fuel : Nat)
    (a : Word) (s : State) (hm : s.mem.wf = true) (hx : s.cell x = 0) (hf : cellsTo x a < fuel) :
    StringEnds emit fuel a s := by
  induction fuel generalizing a s with
  | zero => exact absurd hf (Nat.not_lt_zero _)
  | succ n ih =>
    by_cases ha : a = x
    · exact .of_zero (by rw [ha, memRead_plain h1]; exact hx)
    · have hd := cellsTo_succ ha
      exact .turn (ih _ _ (afterTurn_wf hm) ((afterTurn_cell_other hm h1 h2).trans hx) (by omega))

/-! ### The turn that polls -/

/-- A poll that finds no character leaves a terminator in KBSR. -/
theorem memRead_kbsr_empty {s : State} (hm : s.mem.wf = true) (h : s.console.arrive.pending = []) :
    (memRead kbsrAddr s).1 = 0 := by
  have e : keyboardPoll s = (s.setConsole s.console.arrive).setCell kbsrAddr 0x0000 := by rw [keyboardPoll_eq, h]
  rw [memRead_kbsr, e]
  exact State.setCell_cell_same _ _ _ hm

/-- A poll that finds a character leaves it in KBDR, and a nonzero KBSR. -/
theorem memRead_kbsr_char {s : State} {b : Byte} {rest : List Byte} (hm : s.mem.wf = true)
    (h : s.console.arrive.pending = b :: rest) :
    (memRead kbsrAddr s).1 = kbsrReady ∧ (memRead kbsrAddr s).2.cell kbdrAddr = zext b ∧
      (memRead kbsrAddr s).2.console = { s.console.arrive with pending := rest } := by
  have e : keyboardPoll s =
      ((s.setConsole { s.console.arrive with pending := rest }).setCell kbsrAddr kbsrReady).setCell kbdrAddr (zext b) := by
    rw [keyboardPoll_eq, h]
  rw [memRead_kbsr, e]
  have hw := State.setCell_wf (s.setConsole { s.console.arrive with pending := rest }) kbsrAddr kbsrReady hm
  exact ⟨(State.setCell_cell_other _ _ hw (by decide)).trans (State.setCell_cell_same _ _ _ hm),
    State.setCell_cell_same _ _ _ hw, rfl⟩

/-- The loop with a zero in KBDR at or just before the pointer ends there. -/
theorem StringEnds.of_zero_kbdr (emit : Word → List Byte) (fuel : Nat) (a : Word) (s : State) (hx : s.cell kbdrAddr = 0)
    (ha : a = kbsrAddr + 1 ∨ a = kbdrAddr) (hf : 1 < fuel) : StringEnds emit fuel a s := by
  obtain ⟨n, rfl⟩ : ∃ n, fuel = n + 2 := ⟨fuel - 2, by omega⟩
  have stop : ∀ (m : Nat) (u : State), u.cell kbdrAddr = 0 → StringEnds emit (m + 1) kbdrAddr u := fun m u hu =>
    .of_zero (by rw [memRead_plain (by decide)]; exact hu)
  rcases ha with rfl | rfl
  · refine .turn ?_
    rw [afterTurn_plain (by decide)]
    exact stop n _ hx
  · exact stop _ s hx

theorem zext_eq_zero {b : Byte} : zext b = 0 ↔ b = 0 := by
  refine ⟨fun h => ?_, fun h => by rw [h]; rfl⟩
  have : (zext b).toNat = b.toNat := by simp [zext]; omega
  rw [h] at this
  exact BitVec.eq_of_toNat_eq this.symm

/-! ### The batches are through: the draws that repeat for ever -/

/-- What the next poll's draw does then. -/
theorem arrive_endless {c : Console} (ha : c.arrivals = []) {d : Option Byte} {rest : List (Option Byte)}
    (he : c.endless = d :: rest) : c.arrive = { c with pending := c.pending ++ d.toList, endless := rest ++ [d] } := by
  simp [Console.arrive, ha, he]

/-- The console after a turn that found a character at KBSR. -/
theorem afterTurn_console {emit : Word → List Byte} {s : State} {b : Byte} {rest : List Byte} (hm : s.mem.wf = true)
    (h : s.console.arrive.pending = b :: rest) :
    (afterTurn emit kbsrAddr s).console =
      { s.console.arrive with pending := rest, output := s.console.arrive.output ++ emit (memRead kbsrAddr s).1 } := by
  obtain ⟨-, -, hc⟩ := memRead_kbsr_char hm h
  simp [afterTurn, conWrite, hc]

/-- Draws that again and again bring nothing end the loop: each of them takes one off the queue, and at an empty queue the
poll leaves a terminator. `i` is how far the next of them is. -/
theorem StringEnds.of_empty_draw (emit : Word → List Byte) (fuel i : Nat) (a : Word) (s : State) (hm : s.mem.wf = true)
    (ha : s.console.arrivals = []) (hi : s.console.endless[i]? = some none)
    (hf : (s.console.pending.length * s.console.endless.length + i) * 65536 + cellsTo kbsrAddr a + 2 < fuel) :
    StringEnds emit fuel a s := by
  induction fuel generalizing i a s with
  | zero => exact absurd hf (Nat.not_lt_zero _)
  | succ n ih =>
    by_cases hk : a = kbsrAddr
    · subst hk
      obtain ⟨d, dr, he⟩ : ∃ d dr, s.console.endless = d :: dr := by
        cases h : s.console.endless with
        | nil => simp [h] at hi
        | cons d dr => exact ⟨d, dr, rfl⟩
      have har := arrive_endless ha he
      cases hp : s.console.pending ++ d.toList with
      | nil => exact .of_zero (memRead_kbsr_empty hm (by rw [har]; exact hp))
      | cons b rest =>
        have hc := afterTurn_console (emit := emit) hm (b := b) (rest := rest) (by rw [har]; exact hp)
        rw [har] at hc
        have hl := congrArg List.length hp
        simp only [List.length_append, List.length_cons] at hl
        rw [he] at hi hf
        refine .turn ?_
        cases i with
        | zero =>
          obtain rfl : d = none := by simpa using hi
          have hlen : rest.length + 1 = s.console.pending.length := by simpa using hl.symm
          refine ih dr.length _ _ (afterTurn_wf hm) (by rw [hc]; exact ha) (by simp [hc]) ?_
          rw [hc]
          refine count_round ?_ (cellsTo_lt _ _) hf
          simp only [List.length_append, List.length_cons, List.length_nil, Nat.zero_add, ← hlen, Nat.succ_mul]
          omega
        | succ i =>
          have hi' : dr[i]? = some none := by simpa using hi
          have hlt : i < dr.length := (List.getElem?_eq_some_iff.1 hi').1
          refine ih i _ _ (afterTurn_wf hm) (by rw [hc]; exact ha)
            (by simpa [hc, List.getElem?_append_left hlt] using hi') ?_
          rw [hc]
          refine count_round ?_ (cellsTo_lt _ _) hf
          have hle : rest.length ≤ s.console.pending.length := by
            cases d <;> simp at hl <;> omega
          have := Nat.mul_le_mul_right (dr.length + 1) hle
          simp only [List.length_append, List.length_cons, List.length_nil, Nat.zero_add]
          omega
    · refine .turn ?_
      rw [afterTurn_plain hk]
      exact ih i _ _ hm ha hi (count_turn (cellsTo_succ hk) hf)

/-- Draws without an empty one are characters. -/
theorem draws_are_characters {l : List (Option Byte)} (h : none ∉ l) : ∃ es : List Byte, l = es.map some := by
  induction l with
  | nil => exact ⟨[], rfl⟩
  | cons d l ih =>
    obtain ⟨es, rfl⟩ := ih fun hn => h (List.mem_cons_of_mem _ hn)
    cases d with
    | none => simp at h
    | some b => exact ⟨b :: es, rfl⟩

/-- The turn at KBSR when every draw is a character: one more joins the queue, and the queue's first is taken. -/
theorem turn_characters (emit : Word → List Byte) {s : State} {e : Byte} {er : List Byte} (hm : s.mem.wf = true)
    (ha : s.console.arrivals = []) (he : s.console.endless = (e :: er).map some) :
    ∃ b rest, s.console.pending ++ [e] = b :: rest ∧ (memRead kbsrAddr s).1 = kbsrReady ∧
      (afterTurn emit kbsrAddr s).cell kbdrAddr = zext b ∧ (afterTurn emit kbsrAddr s).console.arrivals = [] ∧
      (afterTurn emit kbsrAddr s).console.pending = rest ∧
      (afterTurn emit kbsrAddr s).console.endless = (er ++ [e]).map some := by
  have har := arrive_endless ha (d := some e) (rest := er.map some) he
  obtain ⟨b, rest, hp⟩ : ∃ b rest, s.console.pending ++ [e] = b :: rest := by
    cases s.console.pending <;> simp
  have hq : s.console.arrive.pending = b :: rest := by rw [har]; exact hp
  obtain ⟨hr, hd, -⟩ := memRead_kbsr_char hm hq
  have hc := afterTurn_console (emit := emit) hm hq
  rw [har] at hc
  exact ⟨b, rest, hp, hr, hd, by rw [hc]; exact ha, by rw [hc], by simp [hc]⟩

/-- A zero character among those to come ends the loop, when it has come to KBDR. -/
theorem StringEnds.of_zero_char (emit : Word → List Byte) (fuel j : Nat) (a : Word) (s : State) (es : List Byte)
    (hm : s.mem.wf = true) (ha : s.console.arrivals = []) (he : s.console.endless = es.map some) (hne : es ≠ [])
    (hj : (s.console.pending ++ es)[j]? = some 0) (hf : j * 65536 + cellsTo kbsrAddr a + 2 < fuel) :
    StringEnds emit fuel a s := by
  induction fuel generalizing j a s es with
  | zero => exact absurd hf (Nat.not_lt_zero _)
  | succ n ih =>
    by_cases hk : a = kbsrAddr
    · subst hk
      obtain ⟨e, er, rfl⟩ := List.exists_cons_of_ne_nil hne
      obtain ⟨b, rest, hp, -, hd, hta, htp, hte⟩ := turn_characters emit hm ha he
      have hl : s.console.pending ++ e :: er = b :: (rest ++ er) := by
        rw [← List.singleton_append, ← List.append_assoc, hp, List.cons_append]
      rw [hl] at hj
      refine .turn ?_
      cases j with
      | zero =>
        obtain rfl : b = 0 := by simpa using hj
        exact .of_zero_kbdr emit n _ _ hd (.inl rfl) (by omega)
      | succ j =>
        have hj' : (rest ++ er)[j]? = some 0 := by simpa using hj
        have hlt : j < (rest ++ er).length := (List.getElem?_eq_some_iff.1 hj').1
        refine ih j _ _ (er ++ [e]) (afterTurn_wf hm) hta hte (by simp) ?_ ?_
        · rw [htp, ← List.append_assoc, List.getElem?_append_left hlt]; exact hj'
        · exact count_round (Nat.le_refl _) (cellsTo_lt _ _) hf
    · refine .turn ?_
      rw [afterTurn_plain hk]
      exact ih j _ _ es hm ha he hne hj (count_turn (cellsTo_succ hk) hf)

/-- Nothing can end the loop: every cell is nonzero but KBSR, and KBDR if the pointer comes to KBSR before it; and every poll
finds a nonzero character, for ever. -/
structure Unending (a : Word) (s : State) : Prop where
  wf : s.mem.wf = true
  cells : ∀ x, x ≠ kbsrAddr → x ≠ kbdrAddr → s.cell x ≠ 0
  kbdr : s.cell kbdrAddr ≠ 0 ∨ (a ≠ kbsrAddr + 1 ∧ a ≠ kbdrAddr)
  through : s.console.arrivals = []
  endless : s.console.endless ≠ []
  draws : ∀ d ∈ s.console.endless, ∃ b, d = some b ∧ b ≠ 0
  chars : ∀ b ∈ s.console.pending, b ≠ 0

/-- An unending string's next cell is not zero, and the rest is unending. -/
theorem Unending.turn {a : Word} {s : State} (h : Unending a s) (emit : Word → List Byte) :
    (memRead a s).1 ≠ 0 ∧ Unending (a + 1) (afterTurn emit a s) := by
  by_cases hk : a = kbsrAddr
  · subst hk
    obtain ⟨es, he⟩ := draws_are_characters (l := s.console.endless) fun hn => by
      obtain ⟨b, hb, -⟩ := h.draws none hn
      cases hb
    have hne : es ≠ [] := by rintro rfl; exact h.endless (by simpa using he)
    obtain ⟨e, er, rfl⟩ := List.exists_cons_of_ne_nil hne
    obtain ⟨b, rest, hp, hr, hd, hta, htp, hte⟩ := turn_characters emit h.wf h.through he
    have hnz : ∀ c ∈ e :: er, c ≠ 0 := fun c hc => by
      obtain ⟨x, hx, h0⟩ := h.draws (some c) (by rw [he]; exact List.mem_map.2 ⟨c, hc, rfl⟩)
      cases hx
      exact h0
    have hq : ∀ c ∈ b :: rest, c ≠ 0 := by
      rw [← hp]
      intro c hc
      rcases List.mem_append.1 hc with hc | hc
      · exact h.chars c hc
      · exact hnz c (by simp_all)
    refine ⟨by rw [hr]; decide, afterTurn_wf h.wf, fun x h1 h2 => ?_, .inl fun hz => ?_, hta, by simp [hte],
      fun d hd' => ?_, fun c hc => hq c ?_⟩
    · rw [afterTurn_cell_other h.wf h1 h2]; exact h.cells x h1 h2
    · exact hq b (by simp) (zext_eq_zero.1 (hd.symm.trans hz))
    · rw [hte] at hd'
      obtain ⟨c, hc, rfl⟩ := List.mem_map.1 hd'
      exact ⟨c, rfl, hnz c (by simpa [or_comm] using hc)⟩
    · rw [htp] at hc; exact List.mem_cons_of_mem _ hc
  · rw [afterTurn_plain hk, memRead_plain hk]
    have hne : s.cell a ≠ 0 := by
      by_cases hd : a = kbdrAddr
      · rcases h.kbdr with h' | h'
        · rw [hd]; exact h'
        · exact absurd hd h'.2
      · exact h.cells a hk hd
    refine ⟨hne, h.wf, h.cells, ?_, h.through, h.endless, h.draws, h.chars⟩
    rcases h.kbdr with h' | ⟨h1, -⟩
    · exact .inl h'
    · refine .inr ⟨fun e => hk ((BitVec.add_left_inj 1).1 e), fun e => h1 ((BitVec.add_left_inj 1).1 (e.trans ?_))⟩
      decide

theorem Unending.hangs {a : Word} {s : State} (h : Unending a s) (emit : Word → List Byte) : StringHangs emit a s := by
  intro fuel
  induction fuel generalizing a s with
  | zero => rfl
  | succ n ih =>
    obtain ⟨hz, h'⟩ := h.turn emit
    rw [stringLoop_succ, if_neg hz]
    exact ih h'

/-- The loop ends within the fuel, or it never ends and every one of the repeating draws is a character. -/
def Decided (emit : Word → List Byte) (fuel : Nat) (a : Word) (s : State) : Prop :=
  StringEnds emit fuel a s ∨ (StringHangs emit a s ∧ s.console.endless ≠ [] ∧ none ∉ s.console.endless)

/-- With the batches through and draws that repeat, the loop ends in time or never. -/
theorem decided_endless (emit : Word → List Byte) (fuel : Nat) (a : Word) (s : State) (hm : s.mem.wf = true)
    (ha : s.console.arrivals = []) (hne : s.console.endless ≠ [])
    (hf : s.console.pollBound * 65536 + cellsTo kbsrAddr a + 2 < fuel) (hr : 65536 < fuel) : Decided emit fuel a s := by
  by_cases hdry : none ∈ s.console.endless
  · obtain ⟨i, hi⟩ := List.mem_iff_getElem?.1 hdry
    have hlt : i < s.console.endless.length := (List.getElem?_eq_some_iff.1 hi).1
    refine .inl (.of_empty_draw emit fuel i a s hm ha hi (count_le ?_ hf))
    simp only [Console.pollBound, Console.inputLeft, ha, List.flatten_nil, List.length_nil, Nat.add_zero, Nat.succ_mul]
    omega
  by_cases hcell : ∃ x, x ≠ kbsrAddr ∧ x ≠ kbdrAddr ∧ s.cell x = 0
  · obtain ⟨x, h1, h2, hx⟩ := hcell
    exact .inl (.of_zero_cell emit h1 h2 fuel a s hm hx (Nat.lt_trans (cellsTo_lt x a) hr))
  obtain ⟨es, he⟩ := draws_are_characters hdry
  have hes : es ≠ [] := by rintro rfl; exact hne (by simpa using he)
  by_cases hchar : ∃ j : Nat, (s.console.pending ++ es)[j]? = some 0
  · obtain ⟨j, hj⟩ := hchar
    have hlt : j < (s.console.pending ++ es).length := (List.getElem?_eq_some_iff.1 hj).1
    refine .inl (.of_zero_char emit fuel j a s es hm ha he hes hj (count_le ?_ hf))
    simp only [List.length_append] at hlt
    simp only [Console.pollBound, Console.inputLeft, ha, he, List.length_map, List.flatten_nil, List.length_nil,
      Nat.add_zero, Nat.succ_mul]
    omega
  by_cases hk : s.cell kbdrAddr = 0 ∧ (a = kbsrAddr + 1 ∨ a = kbdrAddr)
  · exact .inl (.of_zero_kbdr emit fuel a s hk.1 hk.2 (Nat.lt_trans (by decide) hr))
  refine .inr ⟨Unending.hangs ⟨hm, fun x h1 h2 h3 => hcell ⟨x, h1, h2, h3⟩, ?_, ha, hne, fun d hd => ?_, fun b hb h0 => ?_⟩
    emit, hne, hdry⟩
  · by_cases hz : s.cell kbdrAddr = 0
    · exact .inr ⟨fun e => hk ⟨hz, .inl e⟩, fun e => hk ⟨hz, .inr e⟩⟩
    · exact .inl hz
  · rw [he] at hd
    obtain ⟨b, hb, rfl⟩ := List.mem_map.1 hd
    refine ⟨b, rfl, fun h0 => ?_⟩
    subst h0
    exact hchar (List.mem_iff_getElem?.1 (List.mem_append.2 (.inr hb)))
  · subst h0
    exact hchar (List.mem_iff_getElem?.1 (List.mem_append.2 (.inl hb)))

/-! ### Every console -/

/-- A poll that finds a character brings the console nearer to the end of its batches and of a finite input. -/
theorem pollBound_arrive {c : Console} {b : Byte} {rest : List Byte} (h : c.arrive.pending = b :: rest)
    (hn : c.arrivals ≠ [] ∨ c.endless = []) :
    ({ c.arrive with pending := rest } : Console).pollBound + 1 ≤ c.pollBound ∧ c.arrive.endless = c.endless := by
  cases ha : c.arrivals with
  | cons batch later =>
    have e : c.arrive = { c with pending := c.pending ++ batch, arrivals := later } := by simp [Console.arrive, ha]
    rw [e] at h ⊢
    have hl := congrArg List.length h
    simp only [List.length_append, List.length_cons] at hl
    refine ⟨?_, rfl⟩
    simp only [Console.pollBound, Console.inputLeft, ha, List.length_cons, List.flatten_cons, List.length_append]
    have hle : rest.length + later.flatten.length + 1 ≤
        c.pending.length + (batch.length + later.flatten.length) + 1 := by omega
    have := Nat.mul_le_mul_right c.endless.length hle
    omega
  | nil =>
    have he : c.endless = [] := hn.resolve_left (fun h => h ha)
    have e : c.arrive = c := by simp [Console.arrive, ha, he]
    rw [e] at h ⊢
    refine ⟨?_, rfl⟩
    simp only [Console.pollBound, Console.inputLeft, h, he, List.length_cons, List.length_nil]
    omega

/-- The loop ends within the bound or never, and never only where every repeating draw is a character. -/
theorem decided (emit : Word → List Byte) (fuel : Nat) (a : Word) (s : State) (hm : s.mem.wf = true)
    (hf : (s.console.pollBound + 1) * 65536 + cellsTo kbsrAddr a + 2 < fuel) : Decided emit fuel a s := by
  induction fuel generalizing a s with
  | zero => exact absurd hf (Nat.not_lt_zero _)
  | succ n ih =>
    by_cases hn : s.console.arrivals ≠ [] ∨ s.console.endless = []
    · by_cases hz : (memRead a s).1 = 0
      · exact .inl (.of_zero hz)
      have next : ∀ h : (afterTurn emit a s).console.endless = s.console.endless,
          Decided emit n (a + 1) (afterTurn emit a s) → Decided emit (n + 1) a s := fun h hd =>
        hd.imp .turn fun ⟨h1, h2, h3⟩ => ⟨.turn hz h1, h ▸ h2, h ▸ h3⟩
      by_cases hk : a = kbsrAddr
      · subst hk
        cases hp : s.console.arrive.pending with
        | nil => exact absurd (memRead_kbsr_empty hm hp) hz
        | cons b rest =>
          obtain ⟨hb, hend⟩ := pollBound_arrive hp hn
          have hc := afterTurn_console (emit := emit) hm hp
          refine next (by rw [hc]; exact hend) (ih _ _ (afterTurn_wf hm) ?_)
          rw [hc]
          exact count_round (Nat.succ_le_succ hb) (cellsTo_lt _ _) hf
      · refine next (by rw [afterTurn_plain hk]; rfl) ?_
        rw [afterTurn_plain hk]
        exact ih _ _ hm (count_turn (cellsTo_succ hk) hf)
    · exact decided_endless emit _ a s hm (Classical.not_not.1 fun h => hn (.inl h)) (fun h => hn (.inr h))
        (count_bounds hf).1 (count_bounds hf).2

/-- The services' fuel decides the loop. -/
theorem decided_by_stringFuel (emit : Word → List Byte) (a : Word) (s : State) (hm : s.mem.wf = true) :
    Decided emit (stringFuel s) a s :=
  decided emit _ a s hm (count_fuel (cellsTo_lt _ _) (by decide))

/-- It ends within the services' fuel, or no fuel is enough (log 8). -/
theorem stringLoop_fuel (emit : Word → List Byte) (a : Word) (s : State) (hm : s.mem.wf = true) :
    (∃ t, stringLoop emit (stringFuel s) a s = .next t) ∨ ∀ fuel, stringLoop emit fuel a s = .fault .stringHang :=
  (decided_by_stringFuel emit a s hm).imp id And.left

/-- Where a service answers stringHang, no number of cells would have been enough: the step never ends. -/
theorem stringLoop_hang_forever {emit : Word → List Byte} {a : Word} {s : State} (hm : s.mem.wf = true)
    (h : stringLoop emit (stringFuel s) a s = .fault .stringHang) :
    ∀ fuel, stringLoop emit fuel a s = .fault .stringHang := by
  rcases stringLoop_fuel emit a s hm with ⟨t, ht⟩ | h'
  · rw [h] at ht; cases ht
  · exact h'

/-- Where the host's input ends, or again and again a draw brings nothing, every string a service writes ends. -/
theorem stringLoop_ends_of_dry (emit : Word → List Byte) (a : Word) (s : State) (hm : s.mem.wf = true)
    (hd : s.console.endless = [] ∨ none ∈ s.console.endless) : ∃ t, stringLoop emit (stringFuel s) a s = .next t :=
  (decided_by_stringFuel emit a s hm).resolve_right fun h => hd.elim h.2.1 h.2.2

end Sys2Proof.Machine
end

