-- ==== Sys2Proof/Tests/Slice0.lean ====
section
/-! SUPPORT. Tests: the well-formedness smoke, words written out from the spec's encodings, one-step vectors of
spec/95_test_vectors.md, and witnesses for the hypotheses of the statements. Expected values are the spec's. -/

namespace Sys2Proof.Machine.Tests

/-! ### WellFormed: an ill-formed term for each check, beside the nearest well-formed one -/

theorem test_wf_imm5 : (Instr.addImm .r0 .r0 16).wellFormed = false ∧ (Instr.addImm .r0 .r0 15).wellFormed = true := by decide
theorem test_wf_imm5_low : (Instr.andImm .r0 .r0 0xFFEF).wellFormed = false ∧ (Instr.andImm .r0 .r0 0xFFF0).wellFormed = true := by decide
theorem test_wf_offset6 : (Instr.ldr .r0 .r0 32).wellFormed = false ∧ (Instr.ldr .r0 .r0 31).wellFormed = true := by decide
theorem test_wf_offset6_low : (Instr.str .r0 .r0 0xFFDF).wellFormed = false ∧ (Instr.str .r0 .r0 0xFFE0).wellFormed = true := by decide
theorem test_wf_pcoffset9 : (Instr.br 7 256).wellFormed = false ∧ (Instr.br 7 255).wellFormed = true := by decide
theorem test_wf_pcoffset9_ld : (Instr.ld .r0 0xFEFF).wellFormed = false ∧ (Instr.ld .r0 0xFF00).wellFormed = true := by decide
theorem test_wf_pcoffset9_others : (Instr.ldi .r0 256).wellFormed = false ∧ (Instr.lea .r0 256).wellFormed = false ∧
    (Instr.st .r0 256).wellFormed = false ∧ (Instr.sti .r0 256).wellFormed = false := by decide
theorem test_wf_pcoffset11 : (Instr.jsr 1024).wellFormed = false ∧ (Instr.jsr 1023).wellFormed = true ∧
    (Instr.jsr 0xFBFF).wellFormed = false ∧ (Instr.jsr 0xFC00).wellFormed = true := by decide

/-! ### Decoding: a word for every constructor, written out bit by bit from R73 and R80 -/

theorem test_decode_br : decode 0b0000101000000010#16 = .br 0b101 2 := by decide
theorem test_decode_addReg : decode 0b0001001010000011#16 = .addReg .r1 .r2 .r3 := by decide
theorem test_decode_addReg_ignored : decode 0b0001001010011011#16 = .addReg .r1 .r2 .r3 := by decide
theorem test_decode_addImm : decode 0b0001000000110000#16 = .addImm .r0 .r0 0xFFF0 := by decide
theorem test_decode_ld : decode 0b0010001100000000#16 = .ld .r1 0xFF00 := by decide
theorem test_decode_st : decode 0b0011001000000101#16 = .st .r1 5 := by decide
theorem test_decode_jsr : decode 0b0100110000000000#16 = .jsr 0xFC00 := by decide
theorem test_decode_jsrr : decode 0b0100011010111111#16 = .jsrr .r2 := by decide
theorem test_decode_andReg : decode 0b0101001010000011#16 = .andReg .r1 .r2 .r3 := by decide
theorem test_decode_andImm : decode 0b0101001010111111#16 = .andImm .r1 .r2 0xFFFF := by decide
theorem test_decode_ldr : decode 0b0110011100111111#16 = .ldr .r3 .r4 0xFFFF := by decide
theorem test_decode_str : decode 0b0111100100100000#16 = .str .r4 .r4 0xFFE0 := by decide
theorem test_decode_rti : decode 0b1000111111111111#16 = .rti := by decide
theorem test_decode_not : decode 0b1001100101000000#16 = .not .r4 .r5 := by decide
theorem test_decode_ldi : decode 0b1010010111111110#16 = .ldi .r2 0xFFFE := by decide
theorem test_decode_sti : decode 0b1011010000000001#16 = .sti .r2 1 := by decide
theorem test_decode_jmp : decode 0b1100111000111111#16 = .jmp .r0 := by decide
theorem test_decode_res : decode 0b1101000100100011#16 = .res := by decide
theorem test_decode_lea : decode 0b1110000111111110#16 = .lea .r0 0xFFFE := by decide
theorem test_decode_trap : decode 0b1111000100100101#16 = .trap 0x25 := by decide

/-- The encoder on the words the rule files spell out: R102, R104, R113, R122, R140. -/
theorem test_encode : encode (.addReg .r1 .r2 .r3) = 0x1283 ∧ encode (.not .r4 .r5) = 0x997F ∧ encode (.jsrr .r7) = 0x41C0 ∧
    encode (.ldr .r3 .r4 0xFFFF) = 0x673F ∧ encode (.trap 0x21) = 0xF021 := by decide
theorem test_decodeTableWord : decodeTableWord 16 0xF025 = some (.trap 0x25) ∧ decodeTableWord 32 0 = none := by decide

/-! ### One step on small states -/

/-- The convention of section 95: reset with a word at PC, the registers and cells named, and the input pending. -/
def start (pc w : Word) (regs : List (Reg × Word)) (cells : List (Word × Word)) (input : List Byte) (c : Cond := Cond.Z) :
    State :=
  let s := regs.foldl (fun s p => s.setReg p.1 p.2) (State.resetWith State.reset.regs [] { Console.silent with pending := input })
  (cells.foldl (fun s p => s.setCell p.1 p.2) ((s.setPc pc).setCell pc w)).setCond c

/-- What `f` sees of the next state. -/
def after {α : Type} (s : State) (f : State → α) : Option α :=
  match step s with
  | .next t => some (f t)
  | .fault _ => none
  | .refused _ => none

theorem test_addReg_overflow : after (start 0x3000 0x1283 [(.r2, 0x7FFF), (.r3, 1)] [] []) (fun t => (t.reg .r1, t.pc, t.cond)) =
    some (0x8000, 0x3001, Cond.N) := by decide
theorem test_addReg_carry : after (start 0x3000 0x1283 [(.r2, 0xFFFF), (.r3, 1)] [] []) (fun t => (t.reg .r1, t.cond)) =
    some (0, Cond.Z) := by decide
theorem test_addImm_negative : after (start 0x3000 0x1030 [] [] []) (fun t => (t.reg .r0, t.cond)) = some (0xFFF0, Cond.N) := by decide
theorem test_addImm_at_top : after (start 0xFFFF 0x1021 [] [] []) (fun t => (t.reg .r0, t.pc, t.cond)) = some (1, 0, Cond.P) := by decide
theorem test_andReg : after (start 0x3000 0x5283 [(.r2, 0xF0F0), (.r3, 0x0FF0)] [] []) (fun t => (t.reg .r1, t.cond)) =
    some (0x00F0, Cond.P) := by decide
theorem test_andImm : after (start 0x3000 0x52B0 [(.r2, 0x123F)] [] []) (fun t => (t.reg .r1, t.cond)) = some (0x1230, Cond.P) := by decide
theorem test_not : after (start 0x3000 0x9940 [(.r5, 0x1234)] [] []) (fun t => (t.reg .r4, t.cond)) = some (0xEDCB, Cond.N) := by decide
theorem test_not_in_place : after (start 0x3000 0x993F [] [] []) (fun t => (t.reg .r4, t.cond)) = some (0xFFFF, Cond.N) := by decide
theorem test_br_not_taken : after (start 0x3000 0x0A02 [] [] []) State.pc = some 0x3001 := by decide
theorem test_br_taken_wraps : after (start 0xFFFE 0x0E02 [] [] []) State.pc = some 0x0001 := by decide
theorem test_jmp : after (start 0x3000 0xC0C0 [(.r3, 0x4000)] [] []) State.pc = some 0x4000 := by decide
theorem test_jsr_wraps : after (start 0xFFFF 0x4BFF [] [] []) (fun t => (t.reg .r7, t.pc)) = some (0x0000, 0x03FF) := by decide
theorem test_jsrr : after (start 0x3000 0x46BF [(.r2, 0x5000)] [] []) (fun t => (t.reg .r7, t.pc)) = some (0x3001, 0x5000) := by decide
theorem test_jsrr_r7 : after (start 0x3000 0x41C0 [(.r7, 0x5000)] [] []) (fun t => (t.reg .r7, t.pc)) = some (0x3001, 0x3001) := by decide
theorem test_ld : after (start 0x3000 0x2300 [] [(0x2F01, 0x8000)] []) (fun t => (t.reg .r1, t.cond)) = some (0x8000, Cond.N) := by decide
theorem test_ldi : after (start 0x3000 0xA5FE [] [(0x2FFF, 0x4000), (0x4000, 0xBEEF)] []) (fun t => (t.reg .r2, t.cond)) =
    some (0xBEEF, Cond.N) := by decide
theorem test_ldi_kbsr : after (start 0x3000 0xA003 [] [(0x3004, 0xFE00)] [0x41])
    (fun t => (t.reg .r0, t.cond, t.cell 0xFE00, t.cell 0xFE02, t.console.pending)) = some (0x8000, Cond.N, 0x8000, 0x0041, []) := by decide
theorem test_ldr_own_base : after (start 0x3000 0x6240 [(.r1, 0x4000)] [(0x4000, 0x7777)] []) (fun t => (t.reg .r1, t.cond)) =
    some (0x7777, Cond.P) := by decide
theorem test_ldr_kbdr : after (start 0x3000 0x6282 [(.r2, 0xFE00)] [(0xFE02, 0x61), (0xFE00, 0x8000)] [0x62])
    (fun t => (t.reg .r1, t.cond, t.console.pending)) = some (0x61, Cond.P, [0x62]) := by decide
theorem test_lea_no_poll : after (start 0xFDFF 0xE1FF [] [] [0x41]) (fun t => (t.reg .r0, t.pc, t.cond, t.console.pending)) =
    some (0xFDFF, 0xFE00, Cond.N, [0x41]) := by decide
theorem test_lea_zero : after (start 0 0xE1FF [] [] []) (fun t => (t.reg .r0, t.cond)) = some (0, Cond.Z) := by decide
theorem test_st_itself : after (start 0x3000 0x33FF [(.r1, 0xAAAA)] [] [] Cond.N) (fun t => (t.cell 0x3000, t.pc, t.cond)) =
    some (0xAAAA, 0x3001, Cond.N) := by decide
theorem test_sti_kbsr_plain : after (start 0x3000 0xB401 [(.r2, 0xAA)] [(0x3002, 0xFE00)] [0x30])
    (fun t => (t.cell 0xFE00, t.console.pending)) = some (0xAA, [0x30]) := by decide
theorem test_sti_pointer_polls : after (start 0xFDFF 0xB400 [(.r2, 0xAA)] [] [0x30])
    (fun t => (t.cell 0x8000, t.cell 0xFE00, t.cell 0xFE02)) = some (0xAA, 0x8000, 0x30) := by decide
theorem test_str_base : after (start 0x3000 0x7920 [(.r4, 0x4000)] [] []) (fun t => (t.cell 0x3FE0, t.reg .r4)) =
    some (0x4000, 0x4000) := by decide
theorem test_res : after (start 0x3000 0xD123 [(.r7, 0x1234)] [] [] Cond.N) (fun t => (t.reg .r7, t.pc, t.cond)) =
    some (0x1234, 0x3001, Cond.N) := by decide
theorem test_rti : after (start 0x3000 0x8FFF [(.r6, 0x2FF0)] [] [] Cond.P) (fun t => (t.reg .r6, t.pc, t.cond)) =
    some (0x2FF0, 0x3001, Cond.P) := by decide
theorem test_getc : after (start 0x3000 0xF020 [] [] [0xE9]) (fun t => (t.reg .r0, t.reg .r7, t.pc, t.cond, t.console.output)) =
    some (0xE9, 0x3001, 0x3001, Cond.P, []) := by decide
theorem test_out : after (start 0x3000 0xF021 [(.r0, 0x1241)] [] []) (fun t => (t.console.output, t.reg .r7)) =
    some ([0x41], 0x3001) := by decide
theorem test_puts_low_byte_only : after (start 0x3000 0xF022 [(.r0, 0x4000)] [(0x4000, 0x0100), (0x4001, 0x41)] [])
    (fun t => t.console.output) = some [0x00, 0x41] := by decide
theorem test_puts_wraps : after (start 0x3000 0xF022 [(.r0, 0xFFFF)] [(0xFFFF, 0x41)] []) (fun t => t.console.output) =
    some [0x41] := by decide
theorem test_in : after (start 0x3000 0xF023 [] [] [0x7A]) (fun t => (t.console.output, t.reg .r0, t.cond)) =
    some (Config.inPrompt ++ [0x7A], 0x7A, Cond.P) := rfl
theorem test_putsp : after (start 0x3000 0xF024 [(.r0, 0x4000)] [(0x4000, 0x6948), (0x4001, 0x21)] []) (fun t => t.console.output) =
    some [0x48, 0x69, 0x21] := by decide
theorem test_putsp_zero_low_byte : after (start 0x3000 0xF024 [(.r0, 0x4000)] [(0x4000, 0x4100)] []) (fun t => t.console.output) =
    some [0x00, 0x41] := by decide
theorem test_halt : after (start 0x3000 0xFF25 [] [] []) (fun t => (t.run, t.pc, t.reg .r7, t.console.output)) =
    some (.halted, 0x3001, 0x3001, Config.haltMessage) := rfl
theorem test_trap_unknown : after (start 0x3000 0xF026 [(.r0, 0x41)] [] [] Cond.N) (fun t => (t.reg .r0, t.reg .r7, t.cond)) =
    some (0x41, 0x3001, Cond.N) := by decide
theorem test_fetch_polls : after (start 0xFE00 0x1234 [] [] []) (fun t => (t.pc, t.cell 0xFE00, t.cond)) =
    some (0xFE01, 0, Cond.Z) := by decide

/-- The two polls of program P5 with one empty draw: not ready, then ready. -/
theorem test_arrival_schedule :
    let s := (start 0x3000 0xA003 [] [(0x3004, 0xFE00)] []).setConsole { Console.silent with arrivals := [[], [0x61]] }
    after s (fun t => (t.reg .r0, after (t.setPc 0x3000) (fun u => (u.reg .r0, u.cell 0xFE02)))) =
      some (0x0000, some (0x8000, 0x0061)) := by decide

/-- Draws that repeat (D16): the batch of a first poll, then a character, and a GETC waits through the empty draw. -/
theorem test_endless_input :
    let s := (start 0x3000 0xA003 [] [(0x3001, 0xF020), (0x3004, 0xFE00)] []).setConsole
      { Console.silent with arrivals := [[]], endless := [some 0x61, none, some 0x62] }
    after s (fun t => (t.reg .r0, after (t.setPc 0x3000) (fun u => (u.cell 0xFE02, after u (fun w => w.reg .r0))))) =
      some (0x0000, some (0x0061, some 0x0062)) := by decide

/-- Ready and empty in turn for ever (D16, R199): three polls after a first that was ready. -/
theorem test_alternating_polls :
    let s := (start 0x3000 0x1283 [] [] []).setConsole { Console.silent with endless := [some 0x61, none] }
    ((memRead 0xFE00 s).1, (memRead 0xFE00 (afterPolls 1 s)).1, (memRead 0xFE00 (afterPolls 2 s)).1,
      (memRead 0xFE00 (afterPolls 3 s)).1) = (0x8000, 0, 0x8000, 0) := by decide

/-- W10: P1's image file read back. -/
theorem test_load_image :
    (loadImage .reject [] [0x30, 0x00, 0xE0, 0x02, 0xF0, 0x22, 0xF0, 0x25, 0x00, 0x48, 0x00, 0x69, 0x00, 0x00]).map
      (fun m => (m.read 0x3000, m.read 0x3001, m.read 0x3002, m.read 0x3003, m.read 0x3004, m.read 0x3005)) =
      some (0xE002, 0xF022, 0xF025, 0x0048, 0x0069, 0x0000) := by decide
theorem test_load_overflow :
    let file := [0xFF, 0xFF, 0x00, 0x01, 0x00, 0x02]
    (loadImage .wrap [] file).map (fun m => (m.read 0xFFFF, m.read 0)) = some (1, 2) ∧
    (loadImage .truncate [] file).map (fun m => (m.read 0xFFFF, m.read 0)) = some (1, 0) ∧
    loadImage .reject [] file = none := by decide
theorem test_later_image_wins :
    (loadImages .reject [] [[0x30, 0x00, 0x00, 0x01, 0x00, 0x02], [0x30, 0x01, 0x00, 0x03]]).map
      (fun m => (m.read 0x3000, m.read 0x3001)) = some (1, 3) := by decide

/-! ### Witnesses: for each statement with hypotheses, a state and operands that meet them together -/

/-- A running state with a word at PC and two characters pending. -/
def ready : State := start 0x3000 0x1283 [] [(0x3001, 0x4000)] [0x41, 0x42]

/-- The same with nothing pending and nothing to come. -/
def dry : State := start 0x3000 0x1283 [] [] []

/-- The same with polls that are ready and empty in turn, for ever. -/
def alternating : State := dry.setConsole { Console.silent with endless := [some 0x61, none] }

/-- R0 at a string of two cells, 0x4000 and 0x4001. -/
def withString : State := start 0x3000 0xF022 [(.r0, 0x4000)] [(0x4000, 0x48), (0x4001, 0x69)] []

theorem wit_DecodeInvertsEncode : (Instr.addImm .r7 .r0 0xFFF0).wellFormed = true ∧ (Instr.br 0 0x00FF).wellFormed = true ∧
    (Instr.ldr .r0 .r7 0xFFE0).wellFormed = true ∧ (Instr.jsr 0x03FF).wellFormed = true := by decide
theorem wit_IgnoredBitsChangeNothing : (0x129B#16 : Word) &&& (decode 0x1283).usedBits = 0x1283 &&& (decode 0x1283).usedBits := by decide
theorem wit_EveryWordIsInItsRowAlone : inRow (opcodeRow 1) 0x1283 = true ∧ (decode 0x1283).rowIndex = 1 := by decide
theorem wit_SignAndZeroExtension : (0 < 1 ∧ 1 ≤ 16) ∧ (0 < 16 ∧ 16 ≤ 16) ∧ (0 < 5 ∧ 5 ≤ 16) ∧ (7 < 8 ∧ 8 ≤ 8) ∧
    (0b10001#5).getLsbD 4 = true ∧ (0b00001#5).getLsbD 4 = false := by decide
theorem wit_InvariantAtReset : Memory.wf [(0x3000, 0xF025)] = true := by decide
theorem wit_MemoriesThatReadAlikeAreEqual : let m : Memory := Memory.write [(5, 1)] 4 2
    m.wf = true ∧ Memory.wf [(4, 2), (5, 1)] = true ∧ ∀ a : Word, m.read a.toNat = Memory.read [(4, 2), (5, 1)] a.toNat :=
  ⟨by decide, by decide, fun _ => rfl⟩
theorem wit_LoadedImageReadsBack : Memory.wf [] = true ∧ (0xFFFF#16).toNat + [0x1234#16].length ≤ 65536 ∧ 0 < [0x1234#16].length ∧
    (0 < (0xFFFF#16).toNat ∨ (0xFFFF#16).toNat + [0x1234#16].length ≤ 0) ∧
    (65536 < (0xFFFF#16).toNat ∨ (0xFFFF#16).toNat + [0x1234#16].length ≤ 65536) := by decide
theorem wit_NoStartWithoutImages : loadImages .wrap [] [[0x30, 0x00, 0x12, 0x34]] = some [(0x3000, 0x1234)] ∧
    loadImage .wrap [(0x3000, 0x1234)] [0x30] = none := by decide
theorem wit_StepFetchesDecodesExecutes : ready.run = .running ∧ (ready.setRun .halted).run = .halted := by decide
theorem wit_StepRunsTheDecodedInstruction : ready.run = .running ∧ ready.pc ≠ 0xFE00 ∧ decode (ready.cell ready.pc) = .addReg .r1 .r2 .r3 := by decide
theorem wit_FetchAtKbsrPolls : ((ready.setPc 0xFE00).run = .running ∧ (ready.setPc 0xFE00).pc = 0xFE00 ∧
      (ready.setPc 0xFE00).mem.wf = true ∧ (ready.setPc 0xFE00).console.arrive.pending = [0x41, 0x42]) ∧
    (dry.setPc 0xFE00).run = .running ∧ (dry.setPc 0xFE00).pc = 0xFE00 ∧ (dry.setPc 0xFE00).mem.wf = true ∧
      (dry.setPc 0xFE00).console.arrive.pending = [] := by decide
theorem wit_HaltedCoreIsFrozen : (ready.setRun .halted).run = .halted := by decide
theorem wit_OnlyTheHaltServiceHalts : (∃ t, exec (.trap 0x25) ready = .next t) ∧ (∃ t, exec .res ready = .next t) ∧
    (ready.setRun .halted).run = .halted := ⟨⟨_, rfl⟩, ⟨_, rfl⟩, by decide⟩
theorem wit_StepKeepsInvariant : ready.inv = true ∧ ∃ t, step ready = .next t := ⟨by decide, _, rfl⟩
theorem wit_EveryInstructionCompletesUnlessBlocked : ready.mem.wf = true ∧ dry.mem.wf = true ∧ dry.console.upcoming 0 = none := by decide
theorem wit_NextFetchSeesTheStore_st : ready.mem.wf = true ∧ ready.run = .running ∧
    ∃ t, exec (.st .r1 0) ready = .next t ∧ cellsStored (.st .r1 0) ready = [t.pc] ∧ t.pc ≠ 0xFE00 :=
  ⟨by decide, by decide, _, rfl, rfl, by decide⟩
theorem wit_NextFetchSeesTheStore_str : let s := ready.setReg .r2 0x3001
    s.mem.wf = true ∧ s.run = .running ∧ ∃ t, exec (.str .r1 .r2 0xFFFF) s = .next t ∧
      cellsStored (.str .r1 .r2 0xFFFF) s = [t.pc] ∧ t.pc ≠ 0xFE00 :=
  ⟨by decide, by decide, _, rfl, rfl, by decide⟩
theorem wit_NextFetchSeesTheStore_sti : let s := ready.setCell 0x3001 0x3000
    s.mem.wf = true ∧ s.run = .running ∧ ∃ t, exec (.sti .r1 1) s = .next t ∧ cellsStored (.sti .r1 1) s = [t.pc] ∧ t.pc ≠ 0xFE00 :=
  ⟨by decide, by decide, _, rfl, rfl, by decide⟩
theorem wit_StepRunsTheLoadedWord : State.reset.mem.wf = true ∧ State.reset.pc ≠ 0xFE00 := by decide
theorem wit_exec_next : ∀ i ∈ [Instr.br 7 1, .addReg .r0 .r0 .r0, .addImm .r7 .r7 1, .ld .r1 0, .st .r1 0, .jsr 2, .jsrr .r7,
      .andReg .r0 .r0 .r0, .andImm .r0 .r0 0, .ldr .r1 .r1 0] ++ [.str .r1 .r1 0, .rti, .not .r0 .r0, .ldi .r0 1, .sti .r0 1, .jmp .r0,
      .res, .lea .r0 0, .trap 0x20, .trap 0x21, .trap 0x22, .trap 0x23, .trap 0x24, .trap 0x25, .trap 0xFF], ∃ t, exec i ready = .next t := by
  intro i hi
  simp only [List.cons_append, List.nil_append, List.mem_cons, List.not_mem_nil, or_false] at hi
  rcases hi with h | h | h | h | h | h | h | h | h | h | h | h | h | h | h | h | h | h | h | h | h | h | h | h | h <;>
    exact ⟨_, by rw [h]; rfl⟩
/-- The hypothesis of CondIsWrittenByResultsAndReadByBr, RegistersWrittenAreThoseOfR22, PcAfterIsThatOfR25,
ConsoleUsedOnlyByItsCallers and RetReturnsToTheCaller at one instruction; `wit_exec_next` has one of every constructor. -/
theorem wit_exec_next_jsrr : ∃ t, exec (.jsrr .r7) ready = .next t := ⟨_, rfl⟩
theorem wit_RegistersReadAreThoseOfR22 : Reg.r1 ∉ regsRead (.addReg .r1 .r2 .r3) ∧ Reg.r7 ∉ regsRead (.jsrr .r7) ∧
    Reg.r0 ∉ regsRead (.trap 0x20) ∧ (∃ t, exec (.addReg .r1 .r2 .r3) ready = .next t) ∧ (∃ t, exec (.jsrr .r7) ready = .next t) ∧
    ∃ t, exec (.trap 0x20) ready = .next t := ⟨by decide, by decide, by decide, ⟨_, rfl⟩, ⟨_, rfl⟩, ⟨_, rfl⟩⟩
theorem wit_CellsWrittenAreThoseOfR51 : ready.mem.wf = true ∧ ∃ t, exec (.sti .r0 1) ready = .next t := ⟨by decide, _, rfl⟩
theorem wit_StepConsumesInputInOrder : ∃ t, step ready = .next t := ⟨_, rfl⟩
theorem wit_SetccSetsTheValuesFlag : (0x0000#16 : Word) = 0 ∧ ((0x8000#16 : Word) ≠ 0 ∧ (0x8000#16).getLsbD 15 = true) ∧
    (0x7FFF#16 : Word) ≠ 0 ∧ (0x7FFF#16).getLsbD 15 = false := by decide
theorem wit_MemWriteStoresOneCell : ready.mem.wf = true := by decide
theorem wit_ReadsElsewhereArePlain : (0xFE02#16 : Word) ≠ 0xFE00 := by decide
theorem wit_KbsrReadPolls : (ready.mem.wf = true ∧ ready.console.arrive.pending = 0x41 :: [0x42]) ∧
    dry.mem.wf = true ∧ dry.console.arrive.pending = [] := by decide
theorem wit_BrMaskBitsSelectTheFlags : oneHot ready.cond = true ∧ oneHot (ready.setCond Cond.N).cond = true ∧
    oneHot (ready.setCond Cond.P).cond = true := by decide
theorem wit_PlainLoadsWriteTheCell : ready.pc + 1 ≠ 0xFE00 ∧ ready.reg .r0 + 1 ≠ 0xFE00 ∧ ready.cell (ready.pc + 1) ≠ 0xFE00 := by decide
theorem wit_LdiReadsTheKeyboardStatus :
    (let s := ready.setCell 0x3001 0xFE00
     s.mem.wf = true ∧ s.pc + 1 ≠ 0xFE00 ∧ s.cell (s.pc + 1) = 0xFE00 ∧ s.console.arrive.pending = 0x41 :: [0x42]) ∧
    let s := dry.setCell 0x3001 0xFE00
    s.mem.wf = true ∧ s.pc + 1 ≠ 0xFE00 ∧ s.cell (s.pc + 1) = 0xFE00 ∧ s.console.arrive.pending = [] := by decide
theorem wit_StoresWriteTheirCell : ready.mem.wf = true := by decide
theorem wit_StiStoresThroughThePointer : ready.mem.wf = true ∧ ready.pc + 1 ≠ 0xFE00 := by decide
theorem wit_ReservedOpcodesDoNothing : (let s := start 0x3000 0x8FFF [] [] []
      s.run = .running ∧ s.pc ≠ 0xFE00 ∧ field (s.cell s.pc) 12 4 = 0x8) ∧
    let s := start 0xFFFF 0xDFFF [] [] []
    s.run = .running ∧ s.pc ≠ 0xFE00 ∧ field (s.cell s.pc) 12 4 = 0xD := by decide
theorem wit_TrapLinks : ready.mem.wf = true ∧ (∃ t, exec (.trap 0x20) ready = .next t) ∧ ∃ t, exec (.trap 0x24) ready = .next t :=
  ⟨by decide, ⟨_, rfl⟩, ⟨_, rfl⟩⟩
theorem wit_GetcReadsTheOldestCharacter : ready.console.upcoming 0 = some 0x41 := by decide
theorem wit_InPromptsReadsAndEchoes : (dry.setConsole { Console.silent with arrivals := [[], [0x7A]] }).console.upcoming 0 = some 0x7A ∧
    (dry.setConsole { Console.silent with arrivals := [[]], endless := [none, some 0x7A, some 0x00] }).console.upcoming 0 = some 0x7A := by decide
theorem wit_GetcAndInBlockWithoutInput : dry.console.upcoming 0 = none := by decide
theorem wit_PutsWritesTheString : 2 < 65536 ∧ (∀ k, k < 2 → withString.cell (withString.reg .r0 + BitVec.ofNat 16 k) ≠ 0) ∧
    withString.cell (withString.reg .r0 + BitVec.ofNat 16 2) = 0 ∧ ∀ k, k ≤ 2 → withString.reg .r0 + BitVec.ofNat 16 k ≠ 0xFE00 := by decide
/-- The empty string, at the last address. -/
theorem wit_PutspWritesThePackedString : let s := dry.setReg .r0 0xFFFF
    0 < 65536 ∧ (∀ k, k < 0 → s.cell (s.reg .r0 + BitVec.ofNat 16 k) ≠ 0) ∧ s.cell (s.reg .r0 + BitVec.ofNat 16 0) = 0 ∧
      ∀ k, k ≤ 0 → s.reg .r0 + BitVec.ofNat 16 k ≠ 0xFE00 := by decide
theorem wit_OtherVectorsOnlyLink : ((0x1F#8).toNat < 0x20 ∨ 0x25 < (0x1F#8).toNat) ∧ ((0x26#8).toNat < 0x20 ∨ 0x25 < (0x26#8).toNat) := by decide

/-- A memory with 1 in every cell from `lo` on, for `n` cells. -/
def ones : (lo n : Nat) → Memory
  | _, 0 => []
  | lo, n + 1 => (lo, 1) :: ones (lo + 1) n

theorem ones_wf (lo n : Nat) (h : lo + n ≤ 65536) : Memory.wfFrom lo (ones lo n) = true := by
  induction n generalizing lo with
  | zero => rfl
  | succ n ih =>
    have h1 : lo < 65536 := by omega
    simp [ones, Memory.wfFrom, h1, ih (lo + 1) (by omega), Config.unlistedCell]

theorem ones_read (lo n a : Nat) (h1 : lo ≤ a) (h2 : a < lo + n) : (ones lo n).read a = 1 := by
  induction n generalizing lo with
  | zero => omega
  | succ n ih =>
    by_cases e : lo = a
    · simp [ones, Memory.read, e]
    · simp [ones, Memory.read, e, ih (lo + 1) (by omega) (by omega)]

/-- A string with no zero cell and an input without an end: the hypotheses of the hang. -/
def endlessString : State := State.resetWith State.reset.regs (ones 0 65536) { Console.silent with endless := [some 0x41] }

theorem endlessString_cell (a : Word) : endlessString.cell a = 1 :=
  ones_read 0 65536 a.toNat (Nat.zero_le _) (by rw [Nat.zero_add]; exact a.isLt)

theorem wit_StringsHangOnlyOnEndlessInput : (endlessString.mem.wf = true ∧ endlessString.console.arrivals = [] ∧
      endlessString.console.endless ≠ [] ∧ (∀ d ∈ endlessString.console.endless, ∃ b, d = some b ∧ b ≠ 0) ∧
      (∀ b ∈ endlessString.console.pending, b ≠ 0) ∧ ∀ a, a ≠ 0xFE00 → endlessString.cell a ≠ 0) ∧
    dry.mem.wf = true ∧ dry.console.endless = [] ∧ none ∈ alternating.console.endless := by
  refine ⟨⟨ones_wf 0 65536 (Nat.le_refl _), rfl, by simp [endlessString, State.resetWith], ?_, ?_, fun a _ => ?_⟩, by decide, rfl,
    by decide⟩
  · simp [endlessString, State.resetWith]
  · simp [endlessString, State.resetWith, Console.silent]
  · rw [endlessString_cell]; decide
theorem wit_StringServicesEndExactlyAtAZeroCell : withString.mem.wf = true ∧
    (∀ k, k < 2 → (stringRead k (withString.reg .r0) withString).1 ≠ 0) ∧
    (stringRead 2 (withString.reg .r0) withString).1 = 0 := by decide
theorem wit_RepeatingDrawsAnswerEveryPoll : alternating.mem.wf = true ∧ alternating.console.pending = [] ∧
    alternating.console.arrivals = [] ∧ alternating.console.endless[4 % alternating.console.endless.length]? = some (some 0x61) ∧
    alternating.console.endless[5 % alternating.console.endless.length]? = some none := by decide
theorem wit_StepEndsAsR200Names : ready.mem.wf = true ∧ endlessString.mem.wf = true :=
  ⟨by decide, ones_wf 0 65536 (Nat.le_refl _)⟩
theorem endlessString_unending : Unending ((link endlessString).reg .r0) (link endlessString) where
  wf := ones_wf 0 65536 (Nat.le_refl _)
  cells x _ _ := by rw [link_cell, endlessString_cell]; decide
  kbdr := .inl (by rw [link_cell, endlessString_cell]; decide)
  through := rfl
  endless := by simp [endlessString, State.resetWith]
  draws := by simp [endlessString, State.resetWith]
  chars := by simp [endlessString, State.resetWith, Console.silent]

theorem exec_puts (s : State) :
    exec (.trap 0x22) s = stringLoop putsBytes (stringFuel (link s)) ((link s).reg .r0) (link s) := by
  simp [exec, execTrap, trapService, trapPuts, enterTrap]

/-- The hang is reached: PUTS over a memory without a zero cell, under an endless input. -/
theorem test_puts_hangs : exec (.trap 0x22) endlessString = .fault .stringHang := by
  rw [exec_puts]
  exact endlessString_unending.hangs putsBytes _

end Sys2Proof.Machine.Tests
end

section
/-! The extensions of R11: sign extension as the rule's formula at every width, zero extension bit by bit. -/

namespace Sys2Proof

/-- A field whose sign bit is clear is extended with zeros (R11). -/
theorem sext_of_sign_clear {n : Nat} {v : BitVec n} (h : v.getLsbD (n - 1) = false) : sext v = v.setWidth 16 :=
  BitVec.signExtend_eq_setWidth_of_msb_false (by rw [BitVec.msb_eq_getLsbD_last, h])

/-- The ones above a field lie apart from the field, so the formula's sum is the join of their bits (R11). -/
theorem setWidth_add_ones_eq_or {n : Nat} (v : BitVec n) :
    v.setWidth 16 + (0xFFFF#16 <<< n) = v.setWidth 16 ||| (0xFFFF#16 <<< n) := by
  apply BitVec.add_eq_or_of_and_eq_zero
  apply BitVec.eq_of_getLsbD_eq
  intro i _
  by_cases hi : i < n
  · simp [hi]
  · simp [BitVec.getLsbD_of_ge v i (by omega)]

/-- A field whose sign bit is set is extended with ones (R11). -/
theorem sext_of_sign_set {n : Nat} {v : BitVec n} (h : v.getLsbD (n - 1) = true) :
    sext v = v.setWidth 16 + (0xFFFF#16 <<< n) := by
  have hmsb : v.msb = true := by rw [BitVec.msb_eq_getLsbD_last, h]
  rw [setWidth_add_ones_eq_or]
  apply BitVec.eq_of_getLsbD_eq
  intro i hi
  rw [sext, BitVec.getLsbD_signExtend, hmsb, BitVec.getLsbD_or, BitVec.getLsbD_setWidth, BitVec.getLsbD_shiftLeft,
    show (0xFFFF#16) = BitVec.allOnes 16 from rfl, BitVec.getLsbD_allOnes]
  by_cases hin : i < n
  · simp [hi, hin]
  · have hsub : i - n < 16 := by omega
    simp [hi, hin, hsub]

namespace Machine

theorem zext_getLsbD (b : Byte) (k : Nat) : (zext b).getLsbD k = b.getLsbD k := by
  rw [zext, BitVec.getLsbD_setWidth]
  by_cases hk : k < 16
  · simp [hk]
  · simp [hk, BitVec.getLsbD_of_ge b k (by omega)]

end Machine

/-- Settles O7: the formula by cases of the sign bit, and a character's zero extension by its bits. -/
theorem signAndZeroExtension : Obligations.SignAndZeroExtension := by
  refine ⟨fun n _ _ v => ?_, fun b => ⟨fun k _ => Machine.zext_getLsbD b k, fun k hk => ?_⟩⟩
  · split
    case isTrue h => exact sext_of_sign_set h
    case isFalse h => exact sext_of_sign_clear (by simpa using h)
  · rw [Machine.zext_getLsbD, BitVec.getLsbD_of_ge b k hk]

end Sys2Proof
end

section
/-! The meaning of each instruction as the state it completes in: the arms of `exec`, one equation each (10_state.md R33). -/

namespace Sys2Proof.Machine

/-! ### Instructions that always complete -/

section Arms
variable (s : State) (dr sr sr1 sr2 base : Reg) (imm off : Word)

theorem exec_br (nzp : BitVec 3) :
    exec (.br nzp off) s = .next (if nzp &&& s.cond ≠ 0 then s.setPc (s.pc + off) else s) := rfl
theorem exec_addReg : exec (.addReg dr sr1 sr2) s = .next (writeResult dr (s.reg sr1 + s.reg sr2) s) := rfl
theorem exec_addImm : exec (.addImm dr sr1 imm) s = .next (writeResult dr (s.reg sr1 + imm) s) := rfl
theorem exec_andReg : exec (.andReg dr sr1 sr2) s = .next (writeResult dr (s.reg sr1 &&& s.reg sr2) s) := rfl
theorem exec_andImm : exec (.andImm dr sr1 imm) s = .next (writeResult dr (s.reg sr1 &&& imm) s) := rfl
theorem exec_not : exec (.not dr sr) s = .next (writeResult dr (~~~ s.reg sr) s) := rfl
theorem exec_lea : exec (.lea dr off) s = .next (writeResult dr (s.pc + off) s) := rfl
theorem exec_ld : exec (.ld dr off) s =
    .next (writeResult dr (memRead (s.pc + off) s).1 (memRead (s.pc + off) s).2) := rfl
theorem exec_ldr : exec (.ldr dr base off) s =
    .next (writeResult dr (memRead (s.reg base + off) s).1 (memRead (s.reg base + off) s).2) := rfl
theorem exec_ldi : exec (.ldi dr off) s =
    .next (writeResult dr (memRead (memRead (s.pc + off) s).1 (memRead (s.pc + off) s).2).1
      (memRead (memRead (s.pc + off) s).1 (memRead (s.pc + off) s).2).2) := rfl
theorem exec_st : exec (.st sr off) s = .next (s.setCell (s.pc + off) (s.reg sr)) := rfl
theorem exec_str : exec (.str sr base off) s = .next (s.setCell (s.reg base + off) (s.reg sr)) := rfl
theorem exec_sti : exec (.sti sr off) s =
    .next ((memRead (s.pc + off) s).2.setCell (memRead (s.pc + off) s).1 ((memRead (s.pc + off) s).2.reg sr)) := rfl
theorem exec_jmp : exec (.jmp base) s = .next (s.setPc (s.reg base)) := rfl
theorem exec_jsr : exec (.jsr off) s = .next ((link s).setPc (s.pc + off)) := rfl
theorem exec_jsrr : exec (.jsrr base) s = .next ((link s).setPc ((link s).reg base)) := rfl
theorem exec_rti : exec .rti s = .next s := rfl
theorem exec_res : exec .res s = .next s := rfl

end Arms

/-! ### TRAP: the services of R141 -/

/-- TRAP is the link, then the service (R140). -/
theorem exec_trap (v : BitVec 8) (s : State) : exec (.trap v) s = trapService v (link s) := rfl

theorem trapService_getc (s : State) : trapService 0x20 s = trapGetc s := rfl
theorem trapService_out (s : State) : trapService 0x21 s = .next (conWrite [lowByte (s.reg .r0)] s) := rfl
theorem trapService_puts (s : State) :
    trapService 0x22 s = stringLoop putsBytes (stringFuel s) (s.reg .r0) s := by
  simp [trapService, trapPuts]
theorem trapService_in (s : State) : trapService 0x23 s = trapIn s := rfl
theorem trapService_putsp (s : State) :
    trapService 0x24 s = stringLoop putspBytes (stringFuel s) (s.reg .r0) s := by
  simp [trapService, trapPutsp]
theorem trapService_halt (s : State) :
    trapService 0x25 s = .next ((conWrite Config.haltMessage s).setRun .halted) := rfl

/-- Any other vector runs no service (R148). -/
theorem trapService_other {v : BitVec 8} (h : v ∉ [0x20, 0x21, 0x22, 0x23, 0x24, 0x25]) (s : State) :
    trapService v s = .next s := by
  simp only [List.mem_cons, List.not_mem_nil, or_false, not_or] at h
  obtain ⟨h20, h21, h22, h23, h24, h25⟩ := h
  rw [trapService, if_neg h20, if_neg h21, if_neg h22, if_neg h23, if_neg h24, if_neg h25]

/-- The vectors by their services (R141). -/
theorem vector_cases (v : BitVec 8) :
    v = 0x20 ∨ v = 0x21 ∨ v = 0x22 ∨ v = 0x23 ∨ v = 0x24 ∨ v = 0x25 ∨ v ∉ [0x20, 0x21, 0x22, 0x23, 0x24, 0x25] := by
  simp only [List.mem_cons, List.not_mem_nil, or_false]
  tauto

/-- GETC completes exactly when ConRead answers a character, and that character is the result (R142). -/
theorem trapGetc_next_iff {s t : State} :
    trapGetc s = .next t ↔ ∃ c u, conRead s = some (c, u) ∧ t = writeResult .r0 (zext c) u := by
  unfold trapGetc
  cases conRead s with
  | none => simp
  | some p => obtain ⟨c, u⟩ := p; simp [eq_comm]

/-- IN completes exactly when ConRead answers a character after the prompt; it is echoed and is the result (R145). -/
theorem trapIn_next_iff {s t : State} :
    trapIn s = .next t ↔
      ∃ c u, conRead (conWrite Config.inPrompt s) = some (c, u) ∧ t = writeResult .r0 (zext c) (conWrite [c] u) := by
  unfold trapIn
  cases h : conRead (conWrite Config.inPrompt s) with
  | none => simp [h]
  | some p => obtain ⟨c, u⟩ := p; simp [h, eq_comm]

end Sys2Proof.Machine
end

section
/-! What reads and the console's transactions leave unchanged, and what a completing instruction can do, said once. -/

namespace Sys2Proof.Machine

/-- From `s` to `t` there were only memory reads and console transactions: registers, PC, COND and the run state are the
same, a canonical memory stays one, input was consumed in order, and `written` was appended to the output (R41 to R43, R54). -/
structure OnlyIO (written : List Byte) (s t : State) : Prop where
  regs : t.regs = s.regs
  pc : t.pc = s.pc
  cond : t.cond = s.cond
  run : t.run = s.run
  wf : s.mem.wf = true → t.mem.wf = true
  input : ∃ n, ConsumedInput n s.console t.console
  output : t.console.output = s.console.output ++ written

theorem OnlyIO.refl (s : State) : OnlyIO [] s s :=
  ⟨rfl, rfl, rfl, rfl, id, ⟨0, .refl _⟩, (List.append_nil _).symm⟩

theorem OnlyIO.trans {w w' : List Byte} {s t u : State} (h : OnlyIO w s t) (h' : OnlyIO w' t u) :
    OnlyIO (w ++ w') s u where
  regs := h'.regs.trans h.regs
  pc := h'.pc.trans h.pc
  cond := h'.cond.trans h.cond
  run := h'.run.trans h.run
  wf := h'.wf ∘ h.wf
  input := by
    obtain ⟨m, hm⟩ := h.input
    obtain ⟨n, hn⟩ := h'.input
    exact ⟨m + n, hm.trans hn⟩
  output := by rw [h'.output, h.output, List.append_assoc]

theorem OnlyIO.reg {w : List Byte} {s t : State} (h : OnlyIO w s t) (q : Reg) : t.reg q = s.reg q := by
  rw [State.reg, h.regs, State.reg]

theorem OnlyIO.conWrite (bs : List Byte) (s : State) : OnlyIO bs s (conWrite bs s) :=
  ⟨rfl, rfl, rfl, rfl, id, ⟨0, fun _ => rfl⟩, rfl⟩

/-- The poll consumes the first character, where one has arrived, and else none (R54). -/
theorem keyboardPoll_consumedInput (s : State) : ∃ n, ConsumedInput n s.console (keyboardPoll s).console := by
  have harrive : ConsumedInput 0 s.console s.console.arrive := Console.arrive_upcoming s.console
  rw [keyboardPoll_eq]
  split
  next b rest hp => exact ⟨0 + 1, harrive.trans (Console.consumed_pending hp).2⟩
  next => exact ⟨0, harrive⟩

theorem OnlyIO.memRead (a : Word) (s : State) : OnlyIO [] s (memRead a s).2 where
  regs := memRead_regs a s
  pc := memRead_pc a s
  cond := memRead_cond a s
  run := memRead_run a s
  wf := memRead_wf a s
  input := by
    rcases memRead_state a s with h | h <;> rw [h]
    · exact ⟨0, .refl _⟩
    · exact keyboardPoll_consumedInput s
  output := by simp

/-- A completed ConRead (R42) consumes one character. -/
theorem OnlyIO.conRead {s u : State} {c : Byte} (h : conRead s = some (c, u)) : OnlyIO [] s u := by
  cases hfirst : s.console.upcoming 0 with
  | none => rw [conRead_none hfirst] at h; cases h
  | some b =>
    obtain ⟨k, hk, hin, hout⟩ := conRead_some hfirst
    rw [hk] at h
    cases h
    exact ⟨rfl, rfl, rfl, rfl, id, ⟨1, hin⟩, by simp [hout]⟩

/-- A string service that ends only reads and writes (R144, R146). -/
theorem OnlyIO.stringLoop {emit : Word → List Byte} {fuel : Nat} {a : Word} {s t : State}
    (h : stringLoop emit fuel a s = .next t) : ∃ w, OnlyIO w s t :=
  stringLoop_keeps (fun s t => ∃ w, OnlyIO w s t) (fun _ _ _ ⟨_, h⟩ ⟨_, h'⟩ => ⟨_, h.trans h'⟩)
    (fun a s => ⟨_, .memRead a s⟩) (fun bs s => ⟨_, .conWrite bs s⟩) h

/-- How `i`, run on the state `s` after its fetch, can complete: each way with what the spec's tables say of `i` there. -/
inductive Completed (i : Instr) (s : State) : State → Prop where
  /-- A result written with its flags, after the reads of a load (R102 to R104, R120 to R123). -/
  | result {dr : Reg} (v : Word) {u : State} (hflag : flagSource i = some dr) (hregs : regsWritten i = [dr])
      (hpc : pcAfter i s = s.pc) (hvect : ∀ v, i ≠ .trap v) (hio : OnlyIO [] s u) (hplain : readsMemory i = false → u = s) :
      Completed i s (writeResult dr v u)
  /-- A store, after the read of STI's pointer (R124 to R126). -/
  | store (a v : Word) {u : State} (hflag : flagSource i = none) (hregs : regsWritten i = []) (hpc : pcAfter i s = s.pc)
      (hvect : ∀ v, i ≠ .trap v) (hio : OnlyIO [] s u) (hplain : readsMemory i = false → u = s) :
      Completed i s (u.setCell a v)
  /-- PC written and nothing else: BR, JMP, and the no-ops, which leave PC where it is (R110, R111, R160, R161). -/
  | jump (hflag : flagSource i = none) (hregs : regsWritten i = []) (hvect : ∀ v, i ≠ .trap v) :
      Completed i s (s.setPc (pcAfter i s))
  /-- The link, then PC: JSR and JSRR (R112, R113). -/
  | call (hflag : flagSource i = none) (hregs : regsWritten i = [.r7]) (hvect : ∀ v, i ≠ .trap v) :
      Completed i s ((link s).setPc (pcAfter i s))
  /-- The link, then reads and output: OUT, PUTS, PUTSP and the vectors without a service (R143, R144, R146, R148). -/
  | output {vect : BitVec 8} {w : List Byte} {u : State} (hi : i = .trap vect) (h25 : vect ≠ 0x25)
      (hflag : flagSource i = none) (hregs : regsWritten i = [.r7]) (hio : OnlyIO w (link s) u)
      (hplain : readsMemory i = false → u = conWrite w (link s)) : Completed i s u
  /-- The link, then a character into R0 with its flags: GETC and IN (R142, R145). -/
  | input {vect : BitVec 8} {w : List Byte} {u : State} (v : Word) (hi : i = .trap vect) (hvect : vect = 0x20 ∨ vect = 0x23)
      (hflag : flagSource i = some .r0) (hregs : regsWritten i = [.r0, .r7]) (hio : OnlyIO w (link s) u) :
      Completed i s (writeResult .r0 v u)
  /-- The link, the announcement and HALTED: HALT (R147). -/
  | halt (hi : i = .trap 0x25) : Completed i s ((conWrite Config.haltMessage (link s)).setRun .halted)

theorem conWrite_nil (s : State) : conWrite [] s = s := by
  simp [conWrite, State.setConsole]

/-- What a TRAP that completes has done, service by service. -/
theorem Completed.of_trap {v : BitVec 8} {s t : State} (h : exec (.trap v) s = .next t) : Completed (.trap v) s t := by
  rw [exec_trap] at h
  rcases vector_cases v with rfl | rfl | rfl | rfl | rfl | rfl | hother
  · rw [trapService_getc] at h
    obtain ⟨c, u, hc, rfl⟩ := trapGetc_next_iff.1 h
    exact .input _ rfl (.inl rfl) rfl rfl (.conRead hc)
  · rw [trapService_out] at h
    cases h
    exact .output rfl (by decide) rfl rfl (.conWrite _ _) fun _ => rfl
  · rw [trapService_puts] at h
    obtain ⟨w, hio⟩ := OnlyIO.stringLoop h
    exact .output rfl (by decide) rfl rfl hio nofun
  · rw [trapService_in] at h
    obtain ⟨c, u, hc, rfl⟩ := trapIn_next_iff.1 h
    exact .input _ rfl (.inr rfl) rfl rfl ((OnlyIO.conWrite _ _).trans ((OnlyIO.conRead hc).trans (.conWrite _ _)))
  · rw [trapService_putsp] at h
    obtain ⟨w, hio⟩ := OnlyIO.stringLoop h
    exact .output rfl (by decide) rfl rfl hio nofun
  · rw [trapService_halt] at h
    cases h
    exact .halt rfl
  · rw [trapService_other hother] at h
    cases h
    simp only [List.mem_cons, not_or] at hother
    obtain ⟨h20, -, -, h23, -, h25, -⟩ := hother
    have hne : ¬ (v = 0x20 ∨ v = 0x23) := not_or.2 ⟨h20, h23⟩
    exact .output rfl h25 (if_neg hne) (if_neg hne) (.refl _) fun _ => (conWrite_nil _).symm

theorem exec_br_eq_setPc (nzp : BitVec 3) (off : Word) (s : State) :
    exec (.br nzp off) s = .next (s.setPc (pcAfter (.br nzp off) s)) := by
  rw [exec_br, pcAfter]
  by_cases h : nzp &&& s.cond = 0
  · rw [if_pos h, if_neg (not_not.2 h)]; rfl
  · rw [if_neg h, if_pos h]

theorem exec_jsrr_eq_setPc (base : Reg) (s : State) :
    exec (.jsrr base) s = .next ((link s).setPc (pcAfter (.jsrr base) s)) := by
  rw [exec_jsrr, pcAfter]
  by_cases h : base = .r7
  · rw [if_pos h, h, link_reg_r7]
  · rw [if_neg h, link_reg_other s h]

/-- The inversion of `exec`: an instruction that completes has done one of the things of `Completed`. -/
theorem Completed.of_exec {i : Instr} {s t : State} (h : exec i s = .next t) : Completed i s t := by
  cases i with
  | trap v => exact .of_trap h
  | addReg | addImm | andReg | andImm | not | lea =>
    cases h
    exact .result _ rfl rfl rfl nofun (.refl s) fun _ => rfl
  | ld | ldr =>
    cases h
    exact .result _ rfl rfl rfl nofun (.memRead _ s) nofun
  | ldi =>
    cases h
    exact .result _ rfl rfl rfl nofun ((OnlyIO.memRead _ s).trans (.memRead _ _)) nofun
  | st | str =>
    cases h
    exact .store _ _ rfl rfl rfl nofun (.refl s) fun _ => rfl
  | sti =>
    cases h
    exact .store _ _ rfl rfl rfl nofun (.memRead _ s) nofun
  | jmp | rti | res =>
    cases h
    exact .jump rfl rfl nofun
  | br nzp off =>
    rw [exec_br_eq_setPc] at h
    cases h
    exact .jump rfl rfl nofun
  | jsr =>
    cases h
    exact .call rfl rfl nofun
  | jsrr base =>
    rw [exec_jsrr_eq_setPc] at h
    cases h
    exact .call rfl rfl nofun

end Sys2Proof.Machine
end

section
/-! The invariant, the run state, PC, the registers written and the console over all instructions, each read off the ways
an instruction can complete (10_state.md R22, R25, R27, R28, R30, R42, R43). -/

namespace Sys2Proof.Machine

/-! ### The invariant (R27) -/

theorem State.inv_iff (s : State) : s.inv = true ↔ s.mem.wf = true ∧ oneHot s.cond = true := by
  rw [State.inv, Bool.and_eq_true]

theorem exec_keeps_wf {i : Instr} {s t : State} (h : exec i s = .next t) (hm : s.mem.wf = true) : t.mem.wf = true := by
  cases Completed.of_exec h with
  | result _ _ _ _ _ hio | output _ _ _ _ hio | input _ _ _ _ _ hio => exact hio.wf hm
  | store _ _ _ _ _ _ hio => exact State.setCell_wf _ _ _ (hio.wf hm)
  | jump | call | halt => exact hm

theorem exec_cond_of_flagSource_some {i : Instr} {s t : State} {r : Reg} (h : exec i s = .next t)
    (hr : flagSource i = some r) : t.cond = condOf (t.reg r) := by
  cases Completed.of_exec h with
  | result _ hflag | input _ _ _ hflag =>
    obtain rfl := Option.some.inj (hflag.symm.trans hr)
    simp
  | store _ _ hflag | jump hflag | call hflag | output _ _ hflag => exact nomatch hflag.symm.trans hr
  | halt hi => subst hi; exact nomatch hr

theorem exec_cond_of_flagSource_none {i : Instr} {s t : State} (h : exec i s = .next t) (hr : flagSource i = none) :
    t.cond = s.cond := by
  cases Completed.of_exec h with
  | result _ hflag | input _ _ _ hflag => exact nomatch hflag.symm.trans hr
  | store _ _ _ _ _ _ hio | output _ _ _ _ hio => exact hio.cond
  | jump | call | halt => rfl

theorem exec_keeps_oneHot {i : Instr} {s t : State} (h : exec i s = .next t) (hc : oneHot s.cond = true) :
    oneHot t.cond = true := by
  cases hr : flagSource i with
  | none => rw [exec_cond_of_flagSource_none h hr]; exact hc
  | some r => rw [exec_cond_of_flagSource_some h hr]; exact oneHot_condOf _

theorem exec_keeps_inv {i : Instr} {s t : State} (h : exec i s = .next t) (hs : s.inv = true) : t.inv = true := by
  rw [State.inv_iff] at hs ⊢
  exact ⟨exec_keeps_wf h hs.1, exec_keeps_oneHot h hs.2⟩

/-- The state after the fetch is that after the read at PC, with PC advanced (R31). -/
theorem fetch_state (s : State) : (fetch s).2 = (memRead s.pc s).2.setPc (s.pc + 1) := by
  rw [fetch, memRead_pc]

theorem fetch_keeps_inv {s : State} (hs : s.inv = true) : (fetch s).2.inv = true := by
  rw [State.inv_iff] at hs ⊢
  rw [fetch_state, State.setPc_mem, State.setPc_cond, memRead_cond]
  exact ⟨memRead_wf _ s hs.1, hs.2⟩

/-- Settles O19: the fetch keeps the invariant, and so does the instruction. -/
theorem stepKeepsInvariant : Obligations.StepKeepsInvariant := by
  intro s t hs h
  obtain ⟨-, hexec⟩ := step_next_iff.1 h
  exact exec_keeps_inv hexec (fetch_keeps_inv hs)

/-! ### The run state (R30) -/

theorem exec_run {i : Instr} {s t : State} (h : exec i s = .next t) :
    t.run = if i = .trap 0x25 then .halted else s.run := by
  cases Completed.of_exec h with
  | result _ _ _ _ hvect hio | store _ _ _ _ _ hvect hio => rw [if_neg (hvect _)]; exact hio.run
  | jump _ _ hvect | call _ _ hvect => rw [if_neg (hvect _)]; rfl
  | output hi h25 _ _ hio => rw [if_neg (by simpa [hi] using h25)]; exact hio.run
  | input _ hi hvect _ _ hio =>
    rw [if_neg (by rcases hvect with rfl | rfl <;> simp [hi])]
    exact hio.run
  | halt hi => rw [if_pos hi]; rfl

theorem step_of_halted {s : State} (h : s.run = .halted) : step s = .fault (.halted s) := by
  rw [step, h]

theorem step_of_running {s : State} (h : s.run = .running) : step s = exec (decode (fetch s).1) (fetch s).2 := by
  rw [step, h]

theorem step_ne_next_of_halted {s : State} (h : s.run = .halted) (t : State) : step s ≠ .next t := by
  rw [step_of_halted h]
  nofun

/-- Settles O18: the run state after each way to complete, and the step of a HALTED core. -/
theorem onlyTheHaltServiceHalts : Obligations.OnlyTheHaltServiceHalts :=
  ⟨fun _ _ _ => rfl, fun _ _ _ h => exec_run h, fun _ t h => step_ne_next_of_halted h t⟩

/-- Settles O17. -/
theorem haltedCoreIsFrozen : Obligations.HaltedCoreIsFrozen := fun _ h => step_of_halted h

/-! ### PC and the registers (R22, R25) -/

/-- Settles O26: only jumps and calls write PC. -/
theorem pcAfterIsThatOfR25 : Obligations.PcAfterIsThatOfR25 := by
  intro i s t h
  cases Completed.of_exec h with
  | result _ _ _ hpc _ hio | store _ _ _ _ hpc _ hio => rw [hpc]; exact hio.pc
  | jump | call => rfl
  | output hi _ _ _ hio | input _ hi _ _ _ hio => subst hi; exact hio.pc
  | halt hi => subst hi; rfl

theorem link_sameRegsBut {ds : List Reg} (h : Reg.r7 ∈ ds) (s : State) : SameRegsBut ds s (link s) :=
  fun _ hr => link_reg_other s fun e => hr (e ▸ h)

/-- Settles O24: each way to complete writes its result, the link, both, or neither. -/
theorem registersWrittenAreThoseOfR22 : Obligations.RegistersWrittenAreThoseOfR22 := by
  intro i s t h
  cases Completed.of_exec h with
  | result v _ hregs _ _ hio =>
    intro r hr
    rw [writeResult_reg_other v _ (by simpa [hregs] using hr), hio.reg]
  | store _ _ _ _ _ _ hio => exact fun r _ => hio.reg r
  | jump => exact fun _ _ => rfl
  | call _ hregs => exact link_sameRegsBut (by simp [hregs]) s
  | output _ _ _ hregs hio =>
    intro r hr
    rw [hio.reg, link_sameRegsBut (by simp [hregs]) s r hr]
  | input v _ _ _ hregs hio =>
    intro r hr
    obtain ⟨h0, h7⟩ : r ≠ .r0 ∧ r ≠ .r7 := by simpa [hregs] using hr
    rw [writeResult_reg_other v _ h0, hio.reg, link_reg_other s h7]
  | halt hi => exact link_sameRegsBut (by simp [hi, regsWritten]) s

/-! ### The console (R40 to R43, R181) -/

theorem conWrite_console (w : List Byte) (s : State) :
    (conWrite w s).console = { s.console with output := s.console.output ++ w } := rfl

/-- Settles O28: each way to complete does only input and output, and away from the readers only output. -/
theorem consoleUsedOnlyByItsCallers : Obligations.ConsoleUsedOnlyByItsCallers := by
  intro i s t h
  cases Completed.of_exec h with
  | result _ _ _ _ _ hio hplain | store _ _ _ _ _ _ hio hplain =>
    obtain ⟨n, hn⟩ := hio.input
    refine ⟨n, [], hn, hio.output, fun _ => rfl, fun hread _ _ => ?_⟩
    rw [hplain hread]
    simp
  | jump | call =>
    exact ⟨0, [], .refl _, (List.append_nil _).symm, fun _ => rfl, fun _ _ _ => by simp⟩
  | output hi _ _ _ hio hplain =>
    obtain ⟨n, hn⟩ := hio.input
    refine ⟨n, _, hn, hio.output, fun hv => absurd hi (hv _), fun hread _ _ => ?_⟩
    rw [hplain hread, conWrite_console, link_console]
  | input _ hi hvect _ _ hio =>
    obtain ⟨n, hn⟩ := hio.input
    refine ⟨n, _, hn, hio.output, fun hv => absurd hi (hv _), fun _ h20 h23 => ?_⟩
    rcases hvect with rfl | rfl
    · exact absurd hi h20
    · exact absurd hi h23
  | halt hi => exact ⟨0, Config.haltMessage, fun _ => rfl, rfl, fun hv => absurd hi (hv _), fun _ _ _ => rfl⟩

/-- Settles O29: the fetch's read and the instruction, one after the other. -/
theorem stepConsumesInputInOrder : Obligations.StepConsumesInputInOrder := by
  intro s t h
  obtain ⟨-, hexec⟩ := step_next_iff.1 h
  obtain ⟨n, written, hn, hw, -, -⟩ := consoleUsedOnlyByItsCallers _ _ _ hexec
  have hfetch := OnlyIO.memRead s.pc s
  obtain ⟨m, hm⟩ := hfetch.input
  rw [fetch_state, State.setPc_console] at hn hw
  exact ⟨m + n, written, hm.trans hn, by rw [hw, hfetch.output, List.append_nil]⟩

end Sys2Proof.Machine
end

section
/-! What instructions read: registers that R22 does not name and COND, away from BR, do not matter (10_state.md R22, R28).
Reads of memory and console transactions look at neither, so they commute with any change of the two. -/

namespace Sys2Proof.Machine

/-- The registers and COND changed, and nothing else. -/
def State.mapCore (g : RegFile → RegFile) (k : Cond → Cond) (s : State) : State :=
  { s with regs := g s.regs, cond := k s.cond }

theorem State.setReg_eq_mapCore (s : State) (r : Reg) (v : Word) : s.setReg r v = s.mapCore (·.set r v) id := rfl

/-! ### Reads and console transactions commute with the change -/

section Commute
variable (g : RegFile → RegFile) (k : Cond → Cond)

theorem keyboardPoll_mapCore (s : State) : keyboardPoll (s.mapCore g k) = (keyboardPoll s).mapCore g k := by
  rw [keyboardPoll_eq, keyboardPoll_eq, show (s.mapCore g k).console = s.console from rfl]
  split <;> rfl

theorem memRead_mapCore (a : Word) (s : State) :
    memRead a (s.mapCore g k) = ((memRead a s).1, (memRead a s).2.mapCore g k) := by
  by_cases h : a = kbsrAddr
  · rw [h, memRead_kbsr, memRead_kbsr, keyboardPoll_mapCore]; rfl
  · rw [memRead_plain h, memRead_plain h]; rfl

theorem conRead_mapCore (s : State) :
    conRead (s.mapCore g k) = (conRead s).map fun p => (p.1, p.2.mapCore g k) := by
  unfold conRead
  rw [show (s.mapCore g k).console = s.console from rfl]
  split
  next => rfl
  next =>
    split
    next => rfl
    next => split <;> rfl

theorem conRead_mapCore_some {s u : State} {c : Byte} (h : conRead s = some (c, u)) :
    conRead (s.mapCore g k) = some (c, u.mapCore g k) := by
  rw [conRead_mapCore, h]
  rfl

theorem stringLoop_mapCore {emit : Word → List Byte} {fuel : Nat} {a : Word} {s t : State}
    (h : stringLoop emit fuel a s = .next t) :
    stringLoop emit fuel a (s.mapCore g k) = .next (t.mapCore g k) := by
  induction fuel generalizing a s with
  | zero => cases h
  | succ fuel ih =>
    rw [stringLoop_succ] at h
    rw [stringLoop_succ, memRead_mapCore]
    by_cases hz : (memRead a s).1 = 0
    · rw [if_pos hz] at h ⊢
      cases h
      rfl
    · rw [if_neg hz] at h ⊢
      exact ih h

theorem stringFuel_mapCore (s : State) : stringFuel (s.mapCore g k) = stringFuel s := by
  rw [stringFuel, stringFuel, show (s.mapCore g k).console = s.console from rfl]

/-- A service other than GETC and IN does the same, where R0 is the same if the service reads it. -/
theorem trapService_mapCore {v : BitVec 8} {s t : State} (h20 : v ≠ 0x20) (h23 : v ≠ 0x23)
    (h0 : Reg.r0 ∈ regsRead (.trap v) → (s.mapCore g k).reg .r0 = s.reg .r0) (h : trapService v s = .next t) :
    trapService v (s.mapCore g k) = .next (t.mapCore g k) := by
  rcases vector_cases v with rfl | rfl | rfl | rfl | rfl | rfl | hother
  · exact absurd rfl h20
  · rw [trapService_out] at h ⊢
    cases h
    rw [h0 (.head _)]
    rfl
  · rw [trapService_puts] at h ⊢
    rw [stringFuel_mapCore, h0 (.head _)]
    exact stringLoop_mapCore g k h
  · exact absurd rfl h23
  · rw [trapService_putsp] at h ⊢
    rw [stringFuel_mapCore, h0 (.head _)]
    exact stringLoop_mapCore g k h
  · rw [trapService_halt] at h ⊢
    cases h
    rfl
  · rw [trapService_other hother] at h ⊢
    cases h
    rfl

/-- GETC and IN write the same result, over the change. -/
theorem trapService_input_mapCore {v : BitVec 8} {s t : State} (hv : v = 0x20 ∨ v = 0x23) (h : trapService v s = .next t) :
    ∃ x u, t = writeResult .r0 x u ∧ trapService v (s.mapCore g k) = .next (writeResult .r0 x (u.mapCore g k)) := by
  rcases hv with rfl | rfl
  · rw [trapService_getc] at h ⊢
    obtain ⟨c, u, hc, rfl⟩ := trapGetc_next_iff.1 h
    exact ⟨_, u, rfl, trapGetc_next_iff.2 ⟨c, _, conRead_mapCore_some g k hc, rfl⟩⟩
  · rw [trapService_in] at h ⊢
    obtain ⟨c, u, hc, rfl⟩ := trapIn_next_iff.1 h
    exact ⟨_, conWrite [c] u, rfl, trapIn_next_iff.2 ⟨c, _, conRead_mapCore_some g k hc, rfl⟩⟩

end Commute

/-! ### COND (R28) -/

theorem memRead_setCond (a : Word) (s : State) (c : Cond) :
    memRead a (s.setCond c) = ((memRead a s).1, (memRead a s).2.setCond c) :=
  memRead_mapCore id (fun _ => c) a s

theorem link_setCond (s : State) (c : Cond) : link (s.setCond c) = (link s).mapCore id fun _ => c := rfl

theorem exec_trap_setCond {v : BitVec 8} {s t : State} (h : exec (.trap v) s = .next t) (c : Cond) :
    exec (.trap v) (s.setCond c) = .next (if (flagSource (.trap v)).isSome then t else t.setCond c) := by
  rw [exec_trap] at h ⊢
  rw [link_setCond]
  by_cases hv : v = 0x20 ∨ v = 0x23
  · obtain ⟨x, u, rfl, hu⟩ := trapService_input_mapCore id (fun _ => c) hv h
    rw [show flagSource (.trap v) = some .r0 from if_pos hv, hu]
    rfl
  · obtain ⟨h20, h23⟩ := not_or.1 hv
    rw [show flagSource (.trap v) = none from if_neg hv, trapService_mapCore id (fun _ => c) h20 h23 (fun _ => rfl) h]
    rfl

/-- Only BR reads COND: a writer of COND does the same whatever it holds, any other instruction leaves it as it was. -/
theorem exec_setCond {i : Instr} {s t : State} (hbr : ∀ nzp off, i ≠ .br nzp off) (h : exec i s = .next t) (c : Cond) :
    exec i (s.setCond c) = .next (if (flagSource i).isSome then t else t.setCond c) := by
  cases i with
  | trap v => exact exec_trap_setCond h c
  | br nzp off => exact absurd rfl (hbr nzp off)
  | addReg | addImm | andReg | andImm | not | lea | st | str | jmp | jsr | jsrr | rti | res =>
    cases h
    rfl
  | ld => cases h; rw [exec_ld, State.setCond_pc, memRead_setCond]; rfl
  | ldr => cases h; rw [exec_ldr, State.setCond_reg, memRead_setCond]; rfl
  | ldi =>
    rw [exec_ldi] at h
    cases h
    rw [exec_ldi, State.setCond_pc, memRead_setCond, memRead_setCond]
    rfl
  | sti => cases h; rw [exec_sti, State.setCond_pc, memRead_setCond]; rfl

/-- Settles O23: what COND is after its writers and after the others, and that only BR reads it. -/
theorem condIsWrittenByResultsAndReadByBr : Obligations.CondIsWrittenByResultsAndReadByBr := by
  intro i s t h
  refine ⟨?_, fun hbr c => exec_setCond hbr h c⟩
  split
  next r hr => rw [exec_cond_of_flagSource_some h hr]; exact condOf_flagsOf _
  next hr => exact exec_cond_of_flagSource_none h hr

/-! ### The registers (R22) -/

theorem RegFile.ext_get {f f' : RegFile} (h : ∀ q, f.get q = f'.get q) : f = f' := by
  cases f
  cases f'
  rw [RegFile.mk.injEq]
  exact ⟨h .r0, h .r1, h .r2, h .r3, h .r4, h .r5, h .r6, h .r7⟩

theorem RegFile.set_set_same (f : RegFile) (r : Reg) (v w : Word) : (f.set r v).set r w = f.set r w := by
  cases r <;> rfl

theorem RegFile.set_set_comm (f : RegFile) {r q : Reg} (v w : Word) (h : r ≠ q) :
    (f.set r v).set q w = (f.set q w).set r v := by
  apply RegFile.ext_get
  intro p
  by_cases hq : p = q
  · rw [hq, RegFile.get_set_same, RegFile.get_set_other _ _ h.symm, RegFile.get_set_same]
  by_cases hr : p = r
  · rw [RegFile.get_set_other _ _ hq, hr, RegFile.get_set_same, RegFile.get_set_same]
  · rw [RegFile.get_set_other _ _ hq, RegFile.get_set_other _ _ hr, RegFile.get_set_other _ _ hr,
      RegFile.get_set_other _ _ hq]

theorem State.setReg_setReg_same (s : State) (r : Reg) (v w : Word) : (s.setReg r v).setReg r w = s.setReg r w := by
  rw [State.setReg, State.setReg_regs, RegFile.set_set_same]
  rfl

theorem State.setReg_setReg_comm (s : State) {r q : Reg} (v w : Word) (h : r ≠ q) :
    (s.setReg r v).setReg q w = (s.setReg q w).setReg r v := by
  rw [State.setReg, State.setReg_regs, RegFile.set_set_comm _ v w h]
  rfl

theorem writeResult_eq (dr : Reg) (v : Word) (s : State) : writeResult dr v s = (s.setReg dr v).setCond (condOf v) := by
  rw [writeResult, State.setReg_reg_same, setcc]

theorem writeResult_setReg (dr r : Reg) (x v : Word) (s : State) :
    writeResult dr x (s.setReg r v) = if r ∈ [dr] then writeResult dr x s else (writeResult dr x s).setReg r v := by
  rw [writeResult_eq, writeResult_eq]
  split
  next h => rw [List.mem_singleton.1 h, State.setReg_setReg_same]
  next h => rw [State.setReg_setReg_comm s v x (by simpa using h)]; rfl

theorem link_setReg (r : Reg) (v : Word) (s : State) :
    link (s.setReg r v) = if r ∈ [Reg.r7] then link s else (link s).setReg r v := by
  split
  next h => rw [List.mem_singleton.1 h]; exact State.setReg_setReg_same s .r7 v s.pc
  next h => exact State.setReg_setReg_comm s v s.pc (by simpa using h)

theorem memRead_setReg (a : Word) (s : State) (r : Reg) (v : Word) :
    memRead a (s.setReg r v) = ((memRead a s).1, (memRead a s).2.setReg r v) :=
  memRead_mapCore (·.set r v) id a s

theorem exec_trap_setReg {vect : BitVec 8} {s t : State} {r : Reg} (v : Word) (hr : r ∉ regsRead (.trap vect))
    (h : exec (.trap vect) s = .next t) :
    exec (.trap vect) (s.setReg r v) = .next (if r ∈ regsWritten (.trap vect) then t else t.setReg r v) := by
  rw [exec_trap] at h ⊢
  rw [link_setReg]
  split
  next h7 =>
    have hw : r ∈ regsWritten (.trap vect) := by rw [regsWritten, List.mem_singleton.1 h7]; split <;> decide
    rw [if_pos hw, h]
  next h7 =>
    by_cases hv : vect = 0x20 ∨ vect = 0x23
    · obtain ⟨x, u, rfl, hu⟩ := trapService_input_mapCore (·.set r v) id hv h
      have hw : r ∈ regsWritten (.trap vect) ↔ r ∈ [Reg.r0] := by
        rw [List.mem_singleton] at h7
        rw [regsWritten, if_pos hv]
        simp [h7]
      rw [State.setReg_eq_mapCore, hu, ← State.setReg_eq_mapCore, writeResult_setReg]
      simp only [hw]
    · obtain ⟨h20, h23⟩ := not_or.1 hv
      have hw : r ∉ regsWritten (.trap vect) := by rwa [regsWritten, if_neg hv]
      rw [if_neg hw]
      exact trapService_mapCore (·.set r v) id h20 h23
        (fun h0 => State.setReg_reg_other _ v fun e => hr (e ▸ h0)) h

theorem exec_jsrr_setReg {base : Reg} {s t : State} {r : Reg} (v : Word) (hr : r ∉ regsRead (.jsrr base))
    (h : exec (.jsrr base) s = .next t) :
    exec (.jsrr base) (s.setReg r v) = .next (if r ∈ regsWritten (.jsrr base) then t else t.setReg r v) := by
  cases h
  rw [exec_jsrr, link_setReg, regsWritten]
  split
  next => rfl
  next h7 =>
    have hb : base ≠ r := by
      rintro rfl
      rw [List.mem_singleton] at h7
      simp [regsRead, h7] at hr
    rw [State.setReg_reg_other _ v hb]
    rfl

/-- Settles O25: the operands are the same, and what is read and written commutes with the other register's value. -/
theorem registersReadAreThoseOfR22 : Obligations.RegistersReadAreThoseOfR22 := by
  intro i s t r v hr h
  have hreg : ∀ q ∈ regsRead i, ∀ u : State, (u.setReg r v).reg q = u.reg q := fun q hq u =>
    State.setReg_reg_other u v fun e => hr (e ▸ hq)
  cases i with
  | trap vect => exact exec_trap_setReg v hr h
  | br nzp off =>
    rw [exec_br_eq_setPc] at h ⊢
    cases h
    rfl
  | rti | res => cases h; rfl
  | jmp base => cases h; rw [exec_jmp, hreg base (.head _)]; rfl
  | jsr off =>
    cases h
    rw [exec_jsr, link_setReg, regsWritten]
    split <;> rfl
  | jsrr base => exact exec_jsrr_setReg v hr h
  | addReg dr sr1 sr2 =>
    cases h
    rw [exec_addReg, hreg sr1 (.head _), hreg sr2 (.tail _ (.head _)), writeResult_setReg]
    rfl
  | andReg dr sr1 sr2 =>
    cases h
    rw [exec_andReg, hreg sr1 (.head _), hreg sr2 (.tail _ (.head _)), writeResult_setReg]
    rfl
  | addImm dr sr1 imm => cases h; rw [exec_addImm, hreg sr1 (.head _), writeResult_setReg]; rfl
  | andImm dr sr1 imm => cases h; rw [exec_andImm, hreg sr1 (.head _), writeResult_setReg]; rfl
  | not dr sr => cases h; rw [exec_not, hreg sr (.head _), writeResult_setReg]; rfl
  | lea dr off => cases h; rw [exec_lea, writeResult_setReg]; rfl
  | ld dr off => cases h; rw [exec_ld, State.setReg_pc, memRead_setReg, writeResult_setReg]; rfl
  | ldr dr base off => cases h; rw [exec_ldr, hreg base (.head _), memRead_setReg, writeResult_setReg]; rfl
  | ldi dr off => cases h; rw [exec_ldi, State.setReg_pc, memRead_setReg, memRead_setReg, writeResult_setReg]; rfl
  | st sr off => cases h; rw [exec_st, hreg sr (.head _)]; rfl
  | str sr base off => cases h; rw [exec_str, hreg sr (.head _), hreg base (.tail _ (.head _))]; rfl
  | sti sr off =>
    cases h
    rw [exec_sti, State.setReg_pc, memRead_setReg, hreg sr (.head _)]
    rfl

end Sys2Proof.Machine
end

section
/-! Fetch and step on one word, and the fetch at KBSR (10_state.md R30, R31, R44; 20_memory.md R52, R54). -/

namespace Sys2Proof.Machine

/-- Settles O14: the step of a HALTED and of a RUNNING core; the incremented PC is the sum modulo 2^16. -/
theorem stepFetchesDecodesExecutes : Obligations.StepFetchesDecodesExecutes := by
  refine fun s => ⟨step_ne_next_of_halted, fun h => ?_⟩
  have hpc : BitVec.ofNat 16 (s.pc.toNat + 1) = s.pc + 1 := by
    rw [BitVec.ofNat_add, BitVec.ofNat_toNat, BitVec.setWidth_eq]
    rfl
  rw [step_of_running h, fetch_state, hpc]
  rfl

/-- Away from KBSR a step executes what the cell at PC decodes to. -/
theorem step_plain {s : State} (hrun : s.run = .running) (hpc : s.pc ≠ kbsrAddr) :
    step s = exec (decode (s.cell s.pc)) (s.setPc (s.pc + 1)) := by
  rw [step_of_running hrun, fetch_plain hpc]

/-- Settles O15. -/
theorem stepRunsTheDecodedInstruction : Obligations.StepRunsTheDecodedInstruction := by
  rintro s i hrun hpc rfl
  exact step_plain hrun hpc

/-- The host's load of a word is a store at PC on a running core (R44, log 20). -/
theorem State.withFetchWord_toNat (s : State) (w : Word) :
    s.withFetchWord 16 w.toNat = (s.setCell s.pc w).setRun .running := by
  rw [State.withFetchWord, Nat.mod_eq_of_lt w.isLt, BitVec.ofNat_toNat, BitVec.setWidth_eq]

/-- Settles O22: the fetch reads back the word just stored. -/
theorem stepRunsTheLoadedWord : Obligations.StepRunsTheLoadedWord := by
  intro s w hm hpc
  have hcell := State.setCell_cell_same s s.pc w hm
  rw [State.withFetchWord_toNat]
  refine (step_plain (s := (s.setCell s.pc w).setRun .running) rfl hpc).trans ?_
  rw [State.setRun_cell, State.setRun_pc, State.setCell_pc, hcell]

/-! ### The fetch at KBSR -/

/-- What a poll leaves in the cells and the queue when no character is there (R54). -/
theorem keyboardPoll_of_empty {s : State} (hm : s.mem.wf = true) (h : s.console.arrive.pending = []) :
    (keyboardPoll s).cell kbsrAddr = 0 ∧ (keyboardPoll s).cell kbdrAddr = s.cell kbdrAddr ∧
      (keyboardPoll s).console = s.console.arrive := by
  have e : keyboardPoll s = (s.setConsole s.console.arrive).setCell kbsrAddr 0 := by rw [keyboardPoll_eq, h]
  rw [e]
  exact ⟨State.setCell_cell_same _ _ _ hm, State.setCell_cell_other _ _ hm (by decide), rfl⟩

/-- The same when a character is there. -/
theorem keyboardPoll_of_char {s : State} {b : Byte} {rest : List Byte} (hm : s.mem.wf = true)
    (h : s.console.arrive.pending = b :: rest) :
    (keyboardPoll s).cell kbsrAddr = kbsrReady ∧ (keyboardPoll s).cell kbdrAddr = zext b ∧
      (keyboardPoll s).console = { s.console.arrive with pending := rest } := by
  have hread := memRead_kbsr_char hm h
  rwa [memRead_kbsr] at hread

/-- The two words a poll can leave at KBSR decode to instructions that change nothing: a BR never taken, and RTI. -/
theorem exec_decode_keyboardPoll {s : State} (hm : s.mem.wf = true) (u : State) :
    exec (decode ((keyboardPoll s).cell kbsrAddr)) u = .next u := by
  cases h : s.console.arrive.pending with
  | nil =>
    have hnever : ¬ (0 &&& u.cond ≠ 0) := by simp
    rw [(keyboardPoll_of_empty hm h).1, show decode 0 = .br 0 0 by decide, exec_br, if_neg hnever]
  | cons b rest => rw [(keyboardPoll_of_char hm h).1, show decode kbsrReady = .rti by decide, exec_rti]

theorem fetch_at_kbsr {s : State} (hpc : s.pc = kbsrAddr) :
    fetch s = ((keyboardPoll s).cell kbsrAddr, (keyboardPoll s).setPc 0xFE01) := by
  rw [fetch, hpc, memRead_kbsr, keyboardPoll_pc, hpc]
  rfl

theorem step_at_kbsr {s : State} (hrun : s.run = .running) (hpc : s.pc = kbsrAddr) (hm : s.mem.wf = true) :
    step s = .next ((keyboardPoll s).setPc 0xFE01) := by
  rw [step_of_running hrun, fetch_at_kbsr hpc, exec_decode_keyboardPoll hm]

/-- Settles O16: the step is the poll with PC advanced, and the poll's cases give the cells. -/
theorem fetchAtKbsrPolls : Obligations.FetchAtKbsrPolls := by
  intro s hrun hpc hm
  refine ⟨_, step_at_kbsr hrun hpc hm, rfl, fun q _ => keyboardPoll_reg s q, fun a ha => ?_, keyboardPoll_cond s,
    (keyboardPoll_run s).trans hrun, keyboardPoll_output s, fun hempty => ?_, fun b rest hchar => ?_⟩
  · obtain ⟨hkbsr, hkbdr⟩ : a ≠ kbsrAddr ∧ a ≠ kbdrAddr := by simpa [kbsrAddr, kbdrAddr] using ha
    exact keyboardPoll_cell_other s hm hkbsr hkbdr
  · obtain ⟨hs, hd, hc⟩ := keyboardPoll_of_empty hm hempty
    exact ⟨hs, hd, (congrArg Console.pending hc).trans hempty⟩
  · obtain ⟨hs, hd, hc⟩ := keyboardPoll_of_char hm hchar
    exact ⟨hs, hd, congrArg Console.pending hc⟩

end Sys2Proof.Machine
end

section
/-! The console's input at its two limits: none for a ConRead that waits (10_state.md R42), and draws that repeat for ever
for the polls (R41, R199). -/

namespace Sys2Proof.Machine

/-! ### GETC and IN without input -/

theorem trapGetc_stuck {s : State} (h : s.console.upcoming 0 = none) : trapGetc s = .fault (.stuckAwaitingInput s) := by
  rw [trapGetc, conRead_none h]

theorem trapIn_stuck {s : State} (h : s.console.upcoming 0 = none) :
    trapIn s = .fault (.stuckAwaitingInput (conWrite Config.inPrompt s)) := by
  have hprompt : (conWrite Config.inPrompt s).console.upcoming 0 = none := h
  simp only [trapIn, conRead_none hprompt]

/-- Settles O51: GETC is stuck after the link, IN after the link and the prompt. -/
theorem getcAndInBlockWithoutInput : Obligations.GetcAndInBlockWithoutInput := by
  intro s h
  have hlink : SameRegsBut [.r7] s (link s) := link_sameRegsBut (.head _) s
  exact ⟨⟨_, trapGetc_stuck (s := link s) h, rfl, rfl, rfl, hlink, rfl⟩,
    _, trapIn_stuck (s := link s) h, rfl, rfl, rfl, hlink, rfl⟩

/-! ### Polls of draws that repeat -/

/-- The poll takes the oldest character from the queue, if there is one. -/
theorem keyboardPoll_console (s : State) :
    (keyboardPoll s).console = { s.console.arrive with pending := s.console.arrive.pending.tail } := by
  rw [keyboardPoll_eq]
  split
  next h => rw [h]; rfl
  next h =>
    have htail : s.console.arrive.pending.tail = s.console.arrive.pending := by rw [h]; rfl
    rw [htail]
    rfl

/-- With the queue empty and the batches through, a poll takes its draw to the back and leaves the queue empty again. -/
theorem keyboardPoll_draws {s : State} (hp : s.console.pending = []) (ha : s.console.arrivals = []) :
    (keyboardPoll s).console.pending = [] ∧ (keyboardPoll s).console.arrivals = [] ∧
      (keyboardPoll s).console.endless = s.console.endless.rotate 1 := by
  rw [keyboardPoll_console]
  cases he : s.console.endless with
  | nil =>
    have harrive : s.console.arrive = s.console := by simp [Console.arrive, ha, he]
    simp [harrive, hp, ha, he]
  | cons d rest =>
    rw [arrive_endless ha he, hp]
    refine ⟨?_, ha, by simp⟩
    cases d <;> rfl

theorem afterPolls_draws {s : State} (n : Nat) (hm : s.mem.wf = true) (hp : s.console.pending = [])
    (ha : s.console.arrivals = []) :
    (afterPolls n s).mem.wf = true ∧ (afterPolls n s).console.pending = [] ∧ (afterPolls n s).console.arrivals = [] ∧
      (afterPolls n s).console.endless = s.console.endless.rotate n := by
  induction n generalizing s with
  | zero => exact ⟨hm, hp, ha, (List.rotate_zero _).symm⟩
  | succ n ih =>
    obtain ⟨hp', ha', he⟩ := keyboardPoll_draws hp ha
    rw [afterPolls, memRead_kbsr]
    obtain ⟨hmn, hpn, han, hen⟩ := ih (keyboardPoll_wf s hm) hp' ha'
    exact ⟨hmn, hpn, han, by rw [hen, he, List.rotate_rotate, Nat.add_comm]⟩

/-- Settles O60: after `n` polls the draw at place `n`, going round, is the first, and the poll answers as it says. -/
theorem repeatingDrawsAnswerEveryPoll : Obligations.RepeatingDrawsAnswerEveryPoll := by
  intro s d n hm hp ha hd
  obtain ⟨hmn, hpn, han, hen⟩ := afterPolls_draws n hm hp ha
  have hlen : 0 < s.console.endless.length := by
    rw [List.length_pos_iff]
    rintro he
    simp [he] at hd
  obtain ⟨rest, hfirst⟩ : ∃ rest, (afterPolls n s).console.endless = d :: rest := by
    rw [hen]
    apply List.head?_eq_some_iff.1
    rw [List.head?_eq_getElem?, List.getElem?_rotate hlen, Nat.zero_add, hd]
  have harrive : (afterPolls n s).console.arrive.pending = d.toList := by
    rw [arrive_endless han hfirst, hpn, List.nil_append]
  obtain ⟨hp', -, -⟩ := keyboardPoll_draws hpn han
  show let r := memRead kbsrAddr (afterPolls n s); _
  rw [memRead_kbsr]
  refine ⟨?_, ?_, hp'⟩
  · rintro rfl
    obtain ⟨hs, hk, -⟩ := keyboardPoll_of_empty hmn harrive
    exact ⟨hs, hk⟩
  · rintro b rfl
    obtain ⟨hs, hk, -⟩ := keyboardPoll_of_char hmn harrive
    exact ⟨hs, hk⟩

end Sys2Proof.Machine
end

section
/-! The decoder is total and in range, and the rows of the opcode table cover the words without overlap (10_state.md R34;
30_encoding.md R74 to R77, R80, R81). -/

namespace Sys2Proof

/-! ### Immediates and offsets (R74 to R77) -/

/-- A sign-extended field of `n + 1` bits is in the range of its two's complement. -/
theorem inRange_sext {n : Nat} (hn : n + 1 ≤ 16) {lo hi : Int} (hlo : lo = -2 ^ n) (hhi : hi = 2 ^ n - 1)
    (v : BitVec (n + 1)) : inRange lo hi (sext v) = true := by
  have hmin := BitVec.le_two_mul_toInt (x := v)
  have hmax := BitVec.two_mul_toInt_lt (x := v)
  rw [pow_succ] at hmin hmax
  rw [inRange, sext_toInt hn, Bool.and_eq_true, decide_eq_true_iff, decide_eq_true_iff]
  omega

theorem isImm5_sext (v : BitVec 5) : isImm5 (sext v) = true := inRange_sext (by decide) rfl rfl v
theorem isOffset6_sext (v : BitVec 6) : isOffset6 (sext v) = true := inRange_sext (by decide) rfl rfl v
theorem isPCoffset9_sext (v : BitVec 9) : isPCoffset9 (sext v) = true := inRange_sext (by decide) rfl rfl v
theorem isPCoffset11_sext (v : BitVec 11) : isPCoffset11 (sext v) = true := inRange_sext (by decide) rfl rfl v

/-- Settles O5: each opcode's fields, sign-extended, are in their ranges. -/
theorem decodeAnswersWellFormed : Obligations.DecodeAnswersWellFormed := by
  intro w
  unfold decode
  cases Opcode.ofBits (field w 12 4) with
  | br | ld | st | ldi | sti | lea => exact isPCoffset9_sext _
  | ldr | str => exact isOffset6_sext _
  | rti | not | jmp | res | trap => rfl
  | jsr =>
    dsimp only
    split
    · exact isPCoffset11_sext _
    · rfl
  | add | and =>
    dsimp only
    split
    · exact isImm5_sext _
    · rfl

/-! ### The rows of the opcode table (R80, R81) -/

/-- Two rows ask for different values of some bit that both their masks name. -/
theorem opcodeRows_disagree : ∀ j k : Fin 19, j ≠ k →
    (opcodeRow j).1 &&& (opcodeRow k).2 ≠ (opcodeRow k).1 &&& (opcodeRow j).2 := by
  decide

/-- No word lies in two rows. -/
theorem inRow_unique {w : Word} {j k : Fin 19} (hj : inRow (opcodeRow j) w = true) (hk : inRow (opcodeRow k) w = true) :
    j = k := by
  rw [inRow, beq_iff_eq] at hj hk
  by_contra hne
  refine opcodeRows_disagree j k hne ?_
  rw [← hj, ← hk]
  ac_rfl

/-- Under a mask with the four high bits set, a word is its opcode's number beside its masked low bits (R71). -/
theorem and_mask_eq (w : Word) (m : BitVec 12) :
    w &&& (0xF#4 ++ m) = (Opcode.ofBits (field w 12 4)).number ++ (field w 0 12 &&& m) := by
  have hones (x : BitVec 4) : x &&& 0xF#4 = x := BitVec.and_allOnes
  calc w &&& (0xF#4 ++ m) = withOpcode (Opcode.ofBits (field w 12 4)) (field w 0 12) &&& (0xF#4 ++ m) := by
        rw [withOpcode_fields]
    _ = _ := by rw [withOpcode, BitVec.and_append, hones]

theorem field_one_bit_eq_one_iff (w : Word) (n : Nat) : field w n 1 = 1 ↔ w.getLsbD n = true := by
  refine ⟨fun h => ?_, fun h => BitVec.eq_of_getLsbD_eq fun i hi => ?_⟩
  · have hbit := congrArg (BitVec.getLsbD · 0) h
    simpa [field] using hbit
  · obtain rfl : i = 0 := by omega
    simpa [field] using h

/-- A word under the mask of its opcode and the bit `n` below it shows that bit (R81). -/
theorem and_mask_bit_eq (w : Word) {n : Nat} (hn : n < 12) :
    w &&& (0xF#4 ++ BitVec.twoPow 12 n) =
      (Opcode.ofBits (field w 12 4)).number ++ if field w n 1 = 1 then BitVec.twoPow 12 n else 0 := by
  have hbit : (field w 0 12).getLsbD n = w.getLsbD n := by simp [field, hn]
  rw [and_mask_eq, BitVec.and_twoPow, hbit]
  simp only [field_one_bit_eq_one_iff]
  rfl

/-- Every word lies in the row of its instruction. -/
theorem inRow_decode (w : Word) : inRow (opcodeRow (decode w).rowIndex) w = true := by
  have hplain : w &&& (0xF#4 ++ 0#12) = (Opcode.ofBits (field w 12 4)).number ++ 0#12 := by
    rw [and_mask_eq, BitVec.and_zero]
  have hbit5 := and_mask_bit_eq w (n := 5) (by decide)
  have hbit11 := and_mask_bit_eq w (n := 11) (by decide)
  rw [inRow, beq_iff_eq, decode]
  cases h : Opcode.ofBits (field w 12 4) with
  | add | and =>
    rw [h] at hbit5
    dsimp only
    split at hbit5
    next hm => rw [if_pos hm]; exact hbit5
    next hm => rw [if_neg hm]; exact hbit5
  | jsr =>
    rw [h] at hbit11
    dsimp only
    split at hbit11
    next hm => rw [if_pos hm]; exact hbit11
    next hm => rw [if_neg hm]; exact hbit11
  | br | ld | st | ldr | str | rti | not | ldi | sti | jmp | res | lea | trap =>
    rw [h] at hplain
    exact hplain

/-- Settles O4: a word is in its instruction's row, and rows do not overlap. -/
theorem everyWordIsInItsRowAlone : Obligations.EveryWordIsInItsRowAlone := fun w _ =>
  ⟨fun hk => inRow_unique hk (inRow_decode w), fun hk => hk ▸ inRow_decode w⟩

end Sys2Proof
end

section
/-! The 65536 cells as data: every content is a canonical memory, and canonical memories that read alike are equal
(20_memory.md R50; 70_reset_and_hazards.md R190). -/

namespace Sys2Proof.Machine

/-! ### Every content of the cells is a canonical memory -/

/-- The cells below `n` stored one after the other into the empty memory, each with its value in `f`. -/
def Memory.ofCells (f : Word → Word) : Nat → Memory
  | 0 => []
  | n + 1 => (Memory.ofCells f n).write n (f (BitVec.ofNat 16 n))

theorem Memory.ofCells_wf (f : Word → Word) {n : Nat} (hn : n ≤ 65536) : (Memory.ofCells f n).wf = true := by
  induction n with
  | zero => exact Memory.wf_nil
  | succ n ih => exact Memory.wf_write hn (ih (Nat.le_of_succ_le hn))

theorem Memory.read_ofCells (f : Word → Word) {n a : Nat} (hn : n ≤ 65536) (ha : a < n) :
    (Memory.ofCells f n).read a = f (BitVec.ofNat 16 a) := by
  induction n with
  | zero => exact absurd ha (Nat.not_lt_zero a)
  | succ n ih =>
    have hn' : n ≤ 65536 := Nat.le_of_succ_le hn
    rw [Memory.ofCells, Memory.read_write (Memory.ofCells_wf f hn')]
    split
    next h => rw [h]
    next h => exact ih hn' (by omega)

/-- Settles O10: the content is stored cell by cell. -/
theorem everyMemoryContentIsAList : Obligations.EveryMemoryContentIsAList := by
  refine fun f => ⟨Memory.ofCells f 65536, Memory.ofCells_wf f le_rfl, fun a => ?_⟩
  rw [Memory.read_ofCells f le_rfl a.isLt, BitVec.ofNat_toNat, BitVec.setWidth_eq]

/-! ### Canonical memories that read alike -/

theorem Memory.read_cons_same (k : Nat) (u : Word) (m : Memory) : Memory.read ((k, u) :: m) k = u := if_pos rfl

theorem Memory.read_cons_other {k a : Nat} (u : Word) (m : Memory) (h : k ≠ a) :
    Memory.read ((k, u) :: m) a = Memory.read m a := if_neg h

/-- A memory that reads like one with a first pair at `k` lists a cell at or below `k`: else it reads there as unlisted. -/
theorem Memory.lower_bound_le_of_read_eq {lo k k' : Nat} {u : Word} {m m' : Memory}
    (hm : Memory.wfFrom lo ((k, u) :: m) = true) (hm' : Memory.wfFrom k' m' = true)
    (hread : Memory.read ((k, u) :: m) k = Memory.read m' k) : k' ≤ k := by
  by_contra hlt
  obtain ⟨-, -, hu, -⟩ := Memory.wfFrom_cons.1 hm
  rw [Memory.read_cons_same, Memory.read_below hm' (Nat.lt_of_not_le hlt)] at hread
  exact hu hread

/-- Canonical lists with the same reads agree pair by pair: on the first address, on its value, and on all after it. -/
theorem Memory.eq_of_read_eq {lo : Nat} {m m' : Memory} (hm : Memory.wfFrom lo m = true)
    (hm' : Memory.wfFrom lo m' = true) (hread : ∀ a < 65536, Memory.read m a = Memory.read m' a) : m = m' := by
  induction m generalizing lo m' with
  | nil =>
    cases m' with
    | nil => rfl
    | cons c m' =>
      obtain ⟨k', u'⟩ := c
      obtain ⟨-, hk', -, -⟩ := Memory.wfFrom_cons.1 hm'
      exact absurd (Memory.lower_bound_le_of_read_eq hm' (m' := []) (k' := k' + 1) rfl (hread k' hk').symm)
        (Nat.not_succ_le_self k')
  | cons c m ih =>
    obtain ⟨k, u⟩ := c
    obtain ⟨-, hk, hu, htail⟩ := Memory.wfFrom_cons.1 hm
    cases m' with
    | nil =>
      exact absurd (Memory.lower_bound_le_of_read_eq hm (m' := []) (k' := k + 1) rfl (hread k hk))
        (Nat.not_succ_le_self k)
    | cons c' m' =>
      obtain ⟨k', u'⟩ := c'
      obtain ⟨-, hk', hu', htail'⟩ := Memory.wfFrom_cons.1 hm'
      have hle : k' ≤ k := Memory.lower_bound_le_of_read_eq hm
        (Memory.wfFrom_cons.2 ⟨le_rfl, hk', hu', htail'⟩) (hread k hk)
      have hge : k ≤ k' := Memory.lower_bound_le_of_read_eq hm'
        (Memory.wfFrom_cons.2 ⟨le_rfl, hk, hu, htail⟩) (hread k' hk').symm
      obtain rfl : k = k' := le_antisymm hge hle
      obtain rfl : u = u' := by simpa only [Memory.read_cons_same] using hread k hk
      have hrest : m = m' := ih htail htail' fun a ha => by
        by_cases hak : a ≤ k
        · rw [Memory.read_below htail (Nat.lt_succ_of_le hak), Memory.read_below htail' (Nat.lt_succ_of_le hak)]
        · have hne : k ≠ a := by omega
          rw [← Memory.read_cons_other u m hne, hread a ha, Memory.read_cons_other u m' hne]
      rw [hrest]

/-- Settles O11: every address below 65536 is a word's. -/
theorem memoriesThatReadAlikeAreEqual : Obligations.MemoriesThatReadAlikeAreEqual := by
  refine fun m m' hm hm' hread => Memory.eq_of_read_eq hm hm' fun a ha => ?_
  have hword := hread (BitVec.ofNat 16 a)
  rwa [BitVec.toNat_ofNat, Nat.mod_eq_of_lt ha] at hword

end Sys2Proof.Machine
end

section
/-! The read and write primitives, the poll among them, and the cells each instruction can change (20_memory.md R51 to
R55, R65). -/

namespace Sys2Proof.Machine

/-! ### MemWrite and MemRead (R52 to R55) -/

/-- A store changes no cell but its own. -/
theorem State.setCell_sameCellsBut {s : State} (a v : Word) (hm : s.mem.wf = true) : SameCellsBut [a] s (s.setCell a v) :=
  fun _ hb => State.setCell_cell_other s v hm (List.ne_of_not_mem_cons hb)

/-- Settles O31. -/
theorem memWriteStoresOneCell : Obligations.MemWriteStoresOneCell := fun a v s hm =>
  ⟨State.setCell_cell_same s a v hm, State.setCell_sameCellsBut a v hm, fun _ _ => rfl, rfl, rfl, rfl, rfl⟩

/-- Settles O32. -/
theorem readsElsewhereArePlain : Obligations.ReadsElsewhereArePlain := fun _ s h => memRead_plain h s

/-- A read, with its poll or without one, changes no cell but KBSR and KBDR. -/
theorem memRead_sameCellsBut (a : Word) {s : State} (hm : s.mem.wf = true) :
    SameCellsBut [kbsrAddr, kbdrAddr] s (memRead a s).2 := by
  intro b hb
  obtain ⟨hkbsr, hkbdr⟩ : b ≠ kbsrAddr ∧ b ≠ kbdrAddr := by simpa using hb
  exact memRead_cell_other a s hm hkbsr hkbdr

/-- Settles O33: the read is the poll, whose two cases give the cells and the console. -/
theorem kbsrReadPolls : Obligations.KbsrReadPolls := by
  intro s hm
  exact ⟨rfl, fun q _ => memRead_reg _ s q, memRead_sameCellsBut _ hm, memRead_pc _ s, memRead_cond _ s,
    memRead_run _ s, keyboardPoll_of_empty hm, fun _ _ => keyboardPoll_of_char hm⟩

/-! ### The cells written, over all instructions (R51) -/

/-- From `s` to `t` a canonical memory stays one, and no cell but KBSR and KBDR changes: what reads do to the memory. -/
def OnlyPolled (s t : State) : Prop :=
  s.mem.wf = true → t.mem.wf = true ∧ SameCellsBut [kbsrAddr, kbdrAddr] s t

theorem OnlyPolled.trans {s t u : State} (h : OnlyPolled s t) (h' : OnlyPolled t u) : OnlyPolled s u := by
  intro hm
  obtain ⟨hmt, ht⟩ := h hm
  obtain ⟨hmu, hu⟩ := h' hmt
  exact ⟨hmu, fun a ha => (hu a ha).trans (ht a ha)⟩

theorem OnlyPolled.memRead (a : Word) (s : State) : OnlyPolled s (memRead a s).2 :=
  fun hm => ⟨memRead_wf a s hm, memRead_sameCellsBut a hm⟩

theorem OnlyPolled.stringLoop {emit : Word → List Byte} {fuel : Nat} {a : Word} {s t : State}
    (h : stringLoop emit fuel a s = .next t) : OnlyPolled s t :=
  stringLoop_keeps OnlyPolled (fun _ _ _ => .trans) .memRead (fun _ _ hm => ⟨hm, fun _ _ => rfl⟩) h

/-- A completed ConRead leaves the memory alone (R42). -/
theorem conRead_mem {s u : State} {c : Byte} (h : conRead s = some (c, u)) : u.mem = s.mem := by
  cases hfirst : s.console.upcoming 0 with
  | none => rw [conRead_none hfirst] at h; cases h
  | some b =>
    obtain ⟨k, hk, -, -⟩ := conRead_some hfirst
    rw [hk] at h
    cases h
    rfl

/-- A memory left alone reads as before. -/
theorem SameCellsBut.of_mem_eq {s t : State} (h : t.mem = s.mem) (addrs : List Word) : SameCellsBut addrs s t :=
  fun a _ => congrArg (Memory.read · a.toNat) h

/-- PUTS and PUTSP change the cells a poll changes, and no other service changes any. -/
theorem exec_trap_sameCellsBut {v : BitVec 8} {s t : State} (hm : s.mem.wf = true) (h : exec (.trap v) s = .next t) :
    SameCellsBut (if readsMemory (.trap v) then [kbsrAddr, kbdrAddr] else []) s t := by
  rw [exec_trap] at h
  rcases vector_cases v with rfl | rfl | rfl | rfl | rfl | rfl | hother
  · rw [trapService_getc] at h
    obtain ⟨c, u, hc, rfl⟩ := trapGetc_next_iff.1 h
    exact .of_mem_eq (conRead_mem hc) _
  · rw [trapService_out] at h
    cases h
    exact .of_mem_eq rfl _
  · rw [trapService_puts] at h
    exact (OnlyPolled.stringLoop h hm).2
  · rw [trapService_in] at h
    obtain ⟨c, u, hc, rfl⟩ := trapIn_next_iff.1 h
    exact .of_mem_eq (conRead_mem hc) _
  · rw [trapService_putsp] at h
    exact (OnlyPolled.stringLoop h hm).2
  · rw [trapService_halt] at h
    cases h
    exact .of_mem_eq rfl _
  · rw [trapService_other hother] at h
    cases h
    exact .of_mem_eq rfl _

/-- A read and then a store at `a` change no cell but `a`, KBSR and KBDR. -/
theorem OnlyPolled.setCell {s u : State} (h : OnlyPolled s u) (hm : s.mem.wf = true) (a v : Word) :
    SameCellsBut [a, kbsrAddr, kbdrAddr] s (u.setCell a v) := by
  intro b hb
  obtain ⟨hmu, hcells⟩ := h hm
  rw [State.setCell_cell_other u v hmu (List.ne_of_not_mem_cons hb), hcells b (List.not_mem_of_not_mem_cons hb)]

/-- Settles O27: by the instruction's stores and reads. -/
theorem cellsWrittenAreThoseOfR51 : Obligations.CellsWrittenAreThoseOfR51 := by
  intro i s t hm h
  cases i with
  | addReg | addImm | andReg | andImm | not | lea | jmp | jsr | jsrr | rti | res =>
    cases h
    exact .of_mem_eq rfl _
  | br nzp off =>
    rw [exec_br_eq_setPc] at h
    cases h
    exact .of_mem_eq rfl _
  | ld | ldr =>
    cases h
    exact memRead_sameCellsBut _ hm
  | ldi =>
    cases h
    exact ((OnlyPolled.memRead _ s).trans (.memRead _ _) hm).2
  | st | str =>
    cases h
    exact State.setCell_sameCellsBut _ _ hm
  | sti =>
    cases h
    exact (OnlyPolled.memRead _ s).setCell hm _ _
  | trap v => exact exec_trap_sameCellsBut hm h

/-! ### A store seen by the next fetch (R65) -/

/-- ST, STR and STI leave the source register's value in the cell they store to. -/
theorem exec_store_cell {i : Instr} {sr : Reg} {s t : State} {a : Word}
    (hi : (∃ off, i = .st sr off) ∨ (∃ base off, i = .str sr base off) ∨ (∃ off, i = .sti sr off))
    (hm : s.mem.wf = true) (h : exec i s = .next t) (ha : cellsStored i s = [a]) : t.cell a = s.reg sr := by
  rcases hi with ⟨off, rfl⟩ | ⟨base, off, rfl⟩ | ⟨off, rfl⟩ <;> obtain rfl := List.singleton_inj.1 ha <;> cases h
  · exact State.setCell_cell_same s _ _ hm
  · exact State.setCell_cell_same s _ _ hm
  · exact (State.setCell_cell_same _ _ _ (memRead_wf _ s hm)).trans (memRead_reg _ s sr)

/-- Settles O21: the core still runs, and the fetch reads the cell just stored to. -/
theorem nextFetchSeesTheStore : Obligations.NextFetchSeesTheStore := by
  intro i sr s t hi hm hrun h hstored hpc
  have hcell : t.cell t.pc = s.reg sr := exec_store_cell hi hm h hstored
  have hnotTrap : i ≠ .trap 0x25 := by
    rintro rfl
    simp at hi
  have htrun : t.run = .running := by rw [exec_run h, if_neg hnotTrap, hrun]
  rw [step_plain htrun hpc, hcell]

end Sys2Proof.Machine
end

section
/-! Decoding undoes encoding, encoding undoes decoding up to the ignored bits, and no ignored bit is read
(30_encoding.md R73, R82, R85). -/

namespace Sys2Proof

/-! ### Immediates and offsets in range (R74 to R77) -/

/-- A value in the range of a field of `n + 1` bits is the sign extension of its low bits. -/
theorem sext_low_of_inRange {n : Nat} (hn : n < 16) {lo hi : Int} (hlo : lo = -2 ^ n) (hhi : hi = 2 ^ n - 1) {v : Word}
    (h : inRange lo hi v = true) : sext (low (n + 1) v) = v := by
  obtain ⟨hmin, hmax⟩ : lo ≤ v.toInt ∧ v.toInt ≤ hi := by simpa [inRange] using h
  exact sext_low hn (hlo ▸ hmin) (by omega)

theorem sext_low_imm5 {v : Word} (h : isImm5 v = true) : sext (low 5 v) = v :=
  sext_low_of_inRange (by decide) rfl rfl h

theorem sext_low_offset6 {v : Word} (h : isOffset6 v = true) : sext (low 6 v) = v :=
  sext_low_of_inRange (by decide) rfl rfl h

theorem sext_low_pcOffset9 {v : Word} (h : isPCoffset9 v = true) : sext (low 9 v) = v :=
  sext_low_of_inRange (by decide) rfl rfl h

theorem sext_low_pcOffset11 {v : Word} (h : isPCoffset11 v = true) : sext (low 11 v) = v :=
  sext_low_of_inRange (by decide) rfl rfl h

/-! ### The fields of each layout (R72, R73) -/

section Layouts

variable (op : Opcode) (b c d : BitVec 3) (mode : BitVec 1)

@[simp] theorem field_at11 (x : BitVec 9) : field (withOpcode op (at11 b x)) 9 3 = b := by
  rw [field_withOpcode _ _ (by decide), at11_high]

@[simp] theorem field_at11_rest (x : BitVec 9) : field (withOpcode op (at11 b x)) 0 9 = x := by
  rw [field_withOpcode _ _ (by decide), at11_low _ _ (by decide), BitVec.extractLsb'_eq_self]

/-- The mode bit of JSR and JSRR is the high bit of the three at 11:9 (R81). -/
@[simp] theorem field_at11_mode (x : BitVec 9) : field (withOpcode op (at11 b x)) 11 1 = b.extractLsb' 2 1 := by
  rw [field_withOpcode _ _ (by decide), at11, BitVec.extractLsb'_append_eq_of_le (by decide)]

@[simp] theorem field_modeAt11 (x : BitVec 11) : field (withOpcode op (modeAt11 mode x)) 11 1 = mode := by
  rw [field_withOpcode _ _ (by decide), modeAt11_high]

@[simp] theorem field_modeAt11_rest (x : BitVec 11) : field (withOpcode op (modeAt11 mode x)) 0 11 = x := by
  rw [field_withOpcode _ _ (by decide), modeAt11_low]

@[simp] theorem field_low8 (p : BitVec 4) (v : BitVec 8) : field (withOpcode op (p ++ v)) 0 8 = v := by
  rw [field_withOpcode _ _ (by decide), BitVec.extractLsb'_append_eq_right]

@[simp] theorem field_at8 (x : BitVec 6) : field (withOpcode op (at11 b (at8 c x))) 6 3 = c := by
  rw [field_withOpcode _ _ (by decide), at11_low _ _ (by decide), at8_high]

theorem field_below_at8 (x : BitVec 6) {lo n : Nat} (h : lo + n ≤ 6) :
    field (withOpcode op (at11 b (at8 c x))) lo n = x.extractLsb' lo n := by
  rw [field_withOpcode _ _ (by omega), at11_low _ _ (by omega), at8_low _ _ h]

@[simp] theorem field_at8_rest (x : BitVec 6) : field (withOpcode op (at11 b (at8 c x))) 0 6 = x := by
  rw [field_below_at8 _ _ _ _ (by decide), BitVec.extractLsb'_eq_self]

@[simp] theorem field_modeAt5 (x : BitVec 5) : field (withOpcode op (at11 b (at8 c (modeAt5 mode x)))) 5 1 = mode := by
  rw [field_below_at8 _ _ _ _ (by decide), modeAt5_high]

@[simp] theorem field_modeAt5_rest (x : BitVec 5) :
    field (withOpcode op (at11 b (at8 c (modeAt5 mode x)))) 0 5 = x := by
  rw [field_below_at8 _ _ _ _ (by decide), modeAt5_low _ _ (by decide), BitVec.extractLsb'_eq_self]

@[simp] theorem field_low3 (p : BitVec 2) :
    field (withOpcode op (at11 b (at8 c (modeAt5 mode (p ++ d))))) 0 3 = d := by
  rw [field_below_at8 _ _ _ _ (by decide), modeAt5_low _ _ (by decide), BitVec.extractLsb'_append_eq_right]

end Layouts

/-! ### Decoding an encoded word (R85) -/

/-- Settles O1: each field of the layout is read back, and a value in its field's range is the extension of its low
bits. -/
theorem decodeInvertsEncode : Obligations.DecodeInvertsEncode := by
  intro i hwf
  cases i with
  | rti | res => decide
  | not | jmp | jsrr => simp [encode, decode, regField]
  | addReg | andReg => simp [encode, decode, regField, at2]
  | trap => simp [encode, decode, vectorBits]
  | br | ld | st | ldi | sti | lea => simp [encode, decode, regField, sext_low_pcOffset9 hwf]
  | ldr | str => simp [encode, decode, regField, sext_low_offset6 hwf]
  | addImm | andImm => simp [encode, decode, regField, sext_low_imm5 hwf]
  | jsr => simp [encode, decode, sext_low_pcOffset11 hwf]

/-! ### A word taken apart along its layout (R72, R73) -/

theorem exists_withOpcode (w : Word) : ∃ op x, w = withOpcode op x := ⟨_, _, (withOpcode_fields w).symm⟩
theorem exists_at11 (x : BitVec 12) : ∃ b y, x = at11 b y := ⟨_, _, (at11_fields x).symm⟩
theorem exists_modeAt11 (x : BitVec 12) : ∃ mode y, x = modeAt11 mode y := ⟨_, _, (modeAt11_fields x).symm⟩
theorem exists_at8 (x : BitVec 9) : ∃ c y, x = at8 c y := ⟨_, _, (at8_fields x).symm⟩
theorem exists_modeAt5 (x : BitVec 6) : ∃ mode y, x = modeAt5 mode y := ⟨_, _, (modeAt5_fields x).symm⟩

theorem exists_append {m k : Nat} (x : BitVec (m + k)) : ∃ (a : BitVec m) (b : BitVec k), x = a ++ b :=
  ⟨_, _, (append_extract x).symm⟩

/-! ### Words that differ in ignored bits only (R82) -/

/-- Words of two parts agree under a mask of two parts when the parts do. -/
theorem append_and_congr {m k : Nat} {a b : BitVec m} {x y : BitVec k} (p : BitVec m) (q : BitVec k)
    (hhigh : a &&& p = b &&& p) (hlow : x &&& q = y &&& q) : (a ++ x) &&& (p ++ q) = (b ++ y) &&& (p ++ q) := by
  rw [BitVec.and_append, BitVec.and_append, hhigh, hlow]

/-- Nothing of a part under a mask of zeros is kept. -/
theorem and_zeros_eq {n : Nat} (x y : BitVec n) : x &&& 0#n = y &&& 0#n := by
  rw [BitVec.and_zero, BitVec.and_zero]

/-- RTI and RES: the opcode is all that is kept. -/
theorem noOperand_and_eq (op : Opcode) (x y : BitVec 12) : withOpcode op x &&& 0xF000 = withOpcode op y &&& 0xF000 :=
  append_and_congr 0xF#4 0#12 rfl (and_zeros_eq x y)

/-- NOT: bits 5:0 are ignored. -/
theorem twoRegisters_and_eq (op : Opcode) (b c : BitVec 3) (x y : BitVec 6) :
    withOpcode op (at11 b (at8 c x)) &&& 0xFFC0 = withOpcode op (at11 b (at8 c y)) &&& 0xFFC0 :=
  append_and_congr 0xF#4 (0x7#3 ++ (0x7#3 ++ 0#6)) rfl
    (append_and_congr _ _ rfl (append_and_congr _ _ rfl (and_zeros_eq x y)))

/-- JMP: bits 11:9 and 5:0 are ignored. -/
theorem base_and_eq (op : Opcode) (a b c : BitVec 3) (x y : BitVec 6) :
    withOpcode op (at11 a (at8 c x)) &&& 0xF1C0 = withOpcode op (at11 b (at8 c y)) &&& 0xF1C0 :=
  append_and_congr 0xF#4 (0#3 ++ (0x7#3 ++ 0#6)) rfl
    (append_and_congr _ _ (and_zeros_eq a b) (append_and_congr _ _ rfl (and_zeros_eq x y)))

/-- JSRR: bits 10:9 and 5:0 are ignored, and bit 11 is the mode. -/
theorem jsrrBase_and_eq (op : Opcode) {a b : BitVec 3} (hmode : a &&& 0b100 = b &&& 0b100) (c : BitVec 3)
    (x y : BitVec 6) : withOpcode op (at11 a (at8 c x)) &&& 0xF9C0 = withOpcode op (at11 b (at8 c y)) &&& 0xF9C0 :=
  append_and_congr 0xF#4 (0b100#3 ++ (0x7#3 ++ 0#6)) rfl
    (append_and_congr _ _ hmode (append_and_congr _ _ rfl (and_zeros_eq x y)))

/-- ADD and AND, register form: bits 4:3 are ignored. -/
theorem registerForm_and_eq (op : Opcode) (b c d : BitVec 3) (mode : BitVec 1) (p q : BitVec 2) :
    withOpcode op (at11 b (at8 c (modeAt5 mode (p ++ d)))) &&& 0xFFE7 =
      withOpcode op (at11 b (at8 c (modeAt5 mode (q ++ d)))) &&& 0xFFE7 :=
  append_and_congr 0xF#4 (0x7#3 ++ (0x7#3 ++ (1#1 ++ (0#2 ++ 0x7#3)))) rfl
    (append_and_congr _ _ rfl (append_and_congr _ _ rfl (append_and_congr _ _ rfl
      (append_and_congr _ _ (and_zeros_eq p q) rfl))))

/-- TRAP: bits 11:8 are ignored. -/
theorem vector_and_eq (op : Opcode) (p q : BitVec 4) (v : BitVec 8) :
    withOpcode op (p ++ v) &&& 0xF0FF = withOpcode op (q ++ v) &&& 0xF0FF :=
  append_and_congr 0xF#4 (0#4 ++ 0xFF#8) rfl (append_and_congr _ _ (and_zeros_eq p q) rfl)

/-- Three bits at 11:9 whose mode bit is not 1 agree in it with the zeros that JSRR is encoded with. -/
theorem mode_bit_eq_of_ne_one : ∀ b : BitVec 3, b.extractLsb' 2 1 ≠ 1 → 0 &&& 0b100#3 = b &&& 0b100#3 := by
  decide

/-! ### Encoding a decoded word (R82, R85) -/

/-- Settles O2: the word is taken apart along its layout, and the encoder puts the decoded fields back. -/
theorem encodeKeepsEveryUsedBit : Obligations.EncodeKeepsEveryUsedBit := by
  intro w
  obtain ⟨op, x, rfl⟩ := exists_withOpcode w
  cases op with
  | br | ld | st | ldi | sti | lea =>
    obtain ⟨b, y, rfl⟩ := exists_at11 x
    simp [decode, encode, regField, low_sext]
  | rti | res =>
    simp only [decode, field_withOpcode_opcode, Opcode.ofBits_number]
    exact noOperand_and_eq _ _ _
  | ldr | str =>
    obtain ⟨b, y, rfl⟩ := exists_at11 x
    obtain ⟨c, z, rfl⟩ := exists_at8 y
    simp [decode, encode, regField, low_sext]
  | not =>
    obtain ⟨b, y, rfl⟩ := exists_at11 x
    obtain ⟨c, z, rfl⟩ := exists_at8 y
    simpa [decode, encode, regField, Instr.usedBits] using twoRegisters_and_eq _ b c _ z
  | jmp =>
    obtain ⟨b, y, rfl⟩ := exists_at11 x
    obtain ⟨c, z, rfl⟩ := exists_at8 y
    simpa [decode, encode, regField, Instr.usedBits] using base_and_eq _ _ b c _ z
  | trap =>
    obtain ⟨p, v, rfl⟩ := exists_append (m := 4) (k := 8) x
    simpa [decode, encode, Instr.usedBits, vectorBits] using vector_and_eq _ _ p v
  | jsr =>
    by_cases hmode : field (withOpcode .jsr x) 11 1 = 1
    · obtain ⟨mode, y, rfl⟩ := exists_modeAt11 x
      obtain rfl : mode = 1 := by rwa [field_modeAt11] at hmode
      simp [decode, encode, low_sext]
    · obtain ⟨b, y, rfl⟩ := exists_at11 x
      obtain ⟨c, z, rfl⟩ := exists_at8 y
      have hne : b.extractLsb' 2 1 ≠ 1#1 := by rwa [field_at11_mode] at hmode
      simpa [decode, encode, regField, Instr.usedBits, hne] using jsrrBase_and_eq _ (mode_bit_eq_of_ne_one b hne) c _ z
  | add | and =>
    obtain ⟨b, y, rfl⟩ := exists_at11 x
    obtain ⟨c, z, rfl⟩ := exists_at8 y
    obtain ⟨mode, u, rfl⟩ := exists_modeAt5 z
    obtain rfl | rfl := BitVec.eq_zero_or_eq_one mode
    · obtain ⟨p, d, rfl⟩ := exists_append (m := 2) (k := 3) u
      simpa [decode, encode, regField, Instr.usedBits, at2] using registerForm_and_eq _ b c d 0 _ p
    · simp [decode, encode, regField, low_sext]

/-! ### Decoding reads no ignored bit (R82) -/

/-- Words that agree under a mask agree on each field that the mask covers. -/
theorem field_eq_of_and_eq {w w' m : Word} (h : w' &&& m = w &&& m) (lo n : Nat)
    (hm : field m lo n = BitVec.allOnes n) : field w' lo n = field w lo n := by
  have hfield (v : Word) : field (v &&& m) lo n = field v lo n := by
    rw [field, BitVec.extractLsb'_and]
    exact (congrArg _ hm).trans BitVec.and_allOnes
  rw [← hfield w', h, hfield w]

theorem regField_eq_of_and_eq {w w' m : Word} (h : w' &&& m = w &&& m) (lo : Nat)
    (hm : field m lo 3 = BitVec.allOnes 3) : regField w' lo = regField w lo :=
  congrArg Reg.ofBits (field_eq_of_and_eq h lo 3 hm)

theorem eq_of_and_ones_eq {w w' : Word} (h : w' &&& 0xFFFF = w &&& 0xFFFF) : w' = w := by
  have hones (v : Word) : v &&& 0xFFFF = v := BitVec.and_allOnes
  rwa [hones, hones] at h

/-- No bit of the opcode is ignored (R71). -/
theorem usedBits_opcode (i : Instr) : field i.usedBits 12 4 = BitVec.allOnes 4 := by
  cases i <;> simp only [Instr.usedBits] <;> rfl

/-- ADD and AND, register form: bits 4:3 are in no field. -/
theorem registerForm_fields_eq {w w' : Word} (h : w' &&& 0xFFE7 = w &&& 0xFFE7) :
    field w' 5 1 = field w 5 1 ∧ regField w' 9 = regField w 9 ∧ regField w' 6 = regField w 6 ∧
      regField w' 0 = regField w 0 :=
  ⟨field_eq_of_and_eq h 5 1 rfl, regField_eq_of_and_eq h 9 rfl, regField_eq_of_and_eq h 6 rfl,
    regField_eq_of_and_eq h 0 rfl⟩

/-- Settles O3: every field that decoding reads, the mode bits among them, is under the mask of the used bits. -/
theorem ignoredBitsChangeNothing : Obligations.IgnoredBitsChangeNothing := by
  intro w w' h
  have hop : field w' 12 4 = field w 12 4 := field_eq_of_and_eq h 12 4 (usedBits_opcode _)
  unfold decode at h ⊢
  rw [hop]
  generalize Opcode.ofBits (field w 12 4) = op at h ⊢
  cases op with
  | br | ld | st | ldi | sti | lea | ldr | str => rw [eq_of_and_ones_eq h]
  | rti | res => rfl
  | not =>
    have hdr : regField w' 9 = regField w 9 := regField_eq_of_and_eq (m := 0xFFC0) h 9 rfl
    have hsr : regField w' 6 = regField w 6 := regField_eq_of_and_eq (m := 0xFFC0) h 6 rfl
    dsimp only
    rw [hdr, hsr]
  | jmp =>
    have hbase : regField w' 6 = regField w 6 := regField_eq_of_and_eq (m := 0xF1C0) h 6 rfl
    dsimp only
    rw [hbase]
  | trap =>
    have hvect : field w' 0 8 = field w 0 8 := field_eq_of_and_eq (m := 0xF0FF) h 0 8 rfl
    dsimp only
    rw [hvect]
  | jsr =>
    dsimp only at h ⊢
    split at h
    next hjsr => rw [eq_of_and_ones_eq h, if_pos hjsr]
    next hjsrr =>
      have hmode : field w' 11 1 = field w 11 1 := field_eq_of_and_eq (m := 0xF9C0) h 11 1 rfl
      have hbase : regField w' 6 = regField w 6 := regField_eq_of_and_eq (m := 0xF9C0) h 6 rfl
      rw [hmode, hbase, if_neg hjsrr, if_neg hjsrr]
  | add | and =>
    dsimp only at h ⊢
    split at h
    next himm => rw [eq_of_and_ones_eq h, if_pos himm]
    next hreg =>
      obtain ⟨hmode, hdr, hsr1, hsr2⟩ := registerForm_fields_eq h
      rw [hmode, hdr, hsr1, hsr2, if_neg hreg, if_neg hreg]

/-- Settles O6: the decoder run on each word. -/
theorem specWordsDecode : Obligations.SpecWordsDecode := by
  unfold Obligations.SpecWordsDecode
  decide

end Sys2Proof
end

section
/-! The flags of a value, and the results of ADD, AND and NOT (40_operate.md R100, R102 to R105). -/

namespace Sys2Proof.Machine

/-! ### The flags (R100) -/

/-- Settles O30: setcc writes the value's flag into COND, and the flag of a value is known by cases. -/
theorem setccSetsTheValuesFlag : Obligations.SetccSetsTheValuesFlag := by
  intro v s
  obtain ⟨hzero, hneg, hpos⟩ := condOf_flagsOf v
  exact ⟨rfl, hzero, fun _ => hneg, hpos⟩

/-! ### ADD, AND, NOT -/

/-- An instruction whose arm writes a result completes in the state that has it, with its flag and its frame. -/
theorem exec_resultIn {i : Instr} {s : State} {dr : Reg} {v : Word} (h : exec i s = .next (writeResult dr v s)) :
    ∃ t, exec i s = .next t ∧ ResultIn dr v s t :=
  ⟨_, h, writeResult_resultIn dr v s⟩

/-- The complement of a word is what is left of 0xFFFF (R104). -/
theorem not_eq_ofNat_sub (v : Word) : ~~~ v = BitVec.ofNat 16 (0xFFFF - v.toNat) := by
  apply BitVec.eq_of_toNat_eq
  rw [BitVec.toNat_not, BitVec.toNat_ofNat]
  omega

/-- Settles O34: the sum of two words is their sum as numbers, modulo 2^16. -/
theorem addWritesTheWrappedSum : Obligations.AddWritesTheWrappedSum := by
  intro s dr sr1 sr2 imm
  rw [← BitVec.add_def, ← BitVec.add_def]
  exact ⟨exec_resultIn (exec_addReg s dr sr1 sr2), exec_resultIn (exec_addImm s dr sr1 imm)⟩

/-- Settles O35. -/
theorem andWritesTheCommonBits : Obligations.AndWritesTheCommonBits := fun s dr sr1 sr2 imm =>
  ⟨exec_resultIn (exec_andReg s dr sr1 sr2), exec_resultIn (exec_andImm s dr sr1 imm)⟩

/-- Settles O36: the complement as a number. -/
theorem notWritesTheComplement : Obligations.NotWritesTheComplement := by
  intro s dr sr
  rw [← not_eq_ofNat_sub]
  exact exec_resultIn (exec_not s dr sr)

end Sys2Proof.Machine
end

section
/-! BR, JMP, JSR and JSRR: their targets and frames, and the return through the link (41_control.md R110 to R114). -/

namespace Sys2Proof.Machine

/-! ### Frames of the control transfers -/

theorem setPc_wentTo (target : Word) (s : State) : WentTo target [] s (s.setPc target) :=
  ⟨rfl, fun _ _ => rfl, fun _ _ => rfl, rfl, rfl, rfl⟩

theorem link_setPc_wentTo (target : Word) (s : State) : WentTo target [.r7] s ((link s).setPc target) :=
  ⟨rfl, link_sameRegsBut (.head _) s, fun _ _ => rfl, rfl, rfl, rfl⟩

/-- An instruction that links and then writes PC completes with the link in R7 and the frame of a call. -/
theorem exec_call_wentTo {i : Instr} {s : State} {target : Word} (h : exec i s = .next ((link s).setPc target)) :
    ∃ t, exec i s = .next t ∧ t.reg .r7 = s.pc ∧ WentTo target [.r7] s t :=
  ⟨_, h, link_reg_r7 s, link_setPc_wentTo target s⟩

/-! ### RET (R111, R114) -/

/-- A TRAP that completes has its return address in R7: no service's reads, output or result touch the link (R140). -/
theorem exec_trap_reg_r7 {v : BitVec 8} {s t : State} (h : exec (.trap v) s = .next t) : t.reg .r7 = s.pc := by
  cases Completed.of_trap h with
  | result _ _ _ _ hvect | store _ _ _ _ _ hvect | jump _ _ hvect | call _ _ hvect => exact absurd rfl (hvect v)
  | output _ _ _ _ hio => rw [hio.reg, link_reg_r7]
  | input c _ _ _ _ hio => rw [writeResult_reg_other c _ (by decide), hio.reg, link_reg_r7]
  | halt => exact link_reg_r7 s

/-- Settles O40: each caller leaves the link in R7, and RET is the jump through it. -/
theorem retReturnsToTheCaller : Obligations.RetReturnsToTheCaller := by
  intro i s t hcaller h
  have hlink : t.reg .r7 = s.pc := by
    rcases hcaller with ⟨off, rfl⟩ | ⟨base, rfl⟩ | ⟨v, rfl⟩
    · rw [exec_jsr] at h
      cases h
      exact link_reg_r7 s
    · rw [exec_jsrr] at h
      cases h
      exact link_reg_r7 s
    · exact exec_trap_reg_r7 h
  rw [exec_jmp, hlink]

/-! ### BR (R110) -/

/-- Settles O37: BR sets PC to what R25 says of it, and the target is the sum of the numbers modulo 2^16. -/
theorem brGoesToItsTargetWhenTheMaskMatches : Obligations.BrGoesToItsTargetWhenTheMaskMatches := by
  intro s nzp off
  rw [← BitVec.add_def]
  exact ⟨_, exec_br_eq_setPc nzp off s, setPc_wentTo _ s⟩

/-- Each mask bit meets the one flag it is paired with, and the three together meet any (K4, log 18). -/
theorem mask_meets_cond : ∀ c : Cond, oneHot c = true →
    0b111 &&& c ≠ 0 ∧ (0b100 &&& c ≠ 0 ↔ c = Cond.N) ∧ (0b010 &&& c ≠ 0 ↔ c = Cond.Z) ∧
      (0b001 &&& c ≠ 0 ↔ c = Cond.P) := by
  decide

/-- Settles O38: BR's condition is that the mask meets COND. -/
theorem brMaskBitsSelectTheFlags : Obligations.BrMaskBitsSelectTheFlags := by
  intro s off
  simp only [exec_br]
  refine ⟨by simp, fun hone => ?_⟩
  obtain ⟨hall, hN, hZ, hP⟩ := mask_meets_cond s.cond hone
  simp only [if_pos hall, hN, hZ, hP, and_self]

/-! ### JMP, JSR, JSRR (R111 to R113) -/

/-- Settles O39: JMP sets PC, and JSR and JSRR link before they do. -/
theorem jumpsGoToTheirTargets : Obligations.JumpsGoToTheirTargets := by
  intro s base off
  rw [← BitVec.add_def]
  exact ⟨⟨_, exec_jmp s base, setPc_wentTo _ s⟩, exec_call_wentTo (exec_jsr s off),
    exec_call_wentTo (exec_jsrr_eq_setPc base s)⟩

end Sys2Proof.Machine
end

section
/-! Loads, LEA and stores: the destination or the cell with its frame, and the keyboard status read through LDI
(42_load_store.md R120 to R126; 20_memory.md R54). -/

namespace Sys2Proof.Machine

/-! ### LD, LDR, LDI, LEA (R120 to R123) -/

/-- LDI through a pointer to KBSR is the poll, with the status it leaves as the result (R121, R54). -/
theorem exec_ldi_kbsr {s : State} {off : Word} (dr : Reg) (hptr : s.pc + off ≠ kbsrAddr)
    (hkbsr : s.cell (s.pc + off) = kbsrAddr) :
    exec (.ldi dr off) s = .next (writeResult dr ((keyboardPoll s).cell kbsrAddr) (keyboardPoll s)) := by
  rw [exec_ldi, memRead_plain hptr, hkbsr, memRead_kbsr]

/-- Settles O43: LDI is the poll and its result, and the poll's two cases give the status, its flag and the character. -/
theorem ldiReadsTheKeyboardStatus : Obligations.LdiReadsTheKeyboardStatus := by
  intro s dr off hm hptr hkbsr
  refine ⟨_, exec_ldi_kbsr dr hptr hkbsr, fun q hq => ?_, fun a ha => ?_, keyboardPoll_pc s, fun hempty => ?_,
    fun b rest hchar => ?_⟩
  · rw [writeResult_reg_other _ _ (List.ne_of_not_mem_cons hq), keyboardPoll_reg]
  · exact memRead_sameCellsBut kbsrAddr hm a ha
  · obtain ⟨hs, hd, -⟩ := keyboardPoll_of_empty hm hempty
    rw [writeResult_reg_same, writeResult_cond, hs]
    exact ⟨rfl, by decide, hd⟩
  · obtain ⟨hs, hd, hc⟩ := keyboardPoll_of_char hm hchar
    rw [writeResult_reg_same, writeResult_cond, hs]
    exact ⟨rfl, by decide, hd, congrArg Console.pending hc⟩

/-- Settles O41: each load writes its result over the state that its last read left. -/
theorem loadsWriteWhatMemReadAnswers : Obligations.LoadsWriteWhatMemReadAnswers := fun s dr base off =>
  ⟨⟨_, exec_ld s dr off, writeResult_resultIn _ _ _⟩, ⟨_, exec_ldr s dr base off, writeResult_resultIn _ _ _⟩,
    ⟨_, exec_ldi s dr off, writeResult_resultIn _ _ _⟩⟩

/-- Settles O42: away from KBSR each read of a load is plain. -/
theorem plainLoadsWriteTheCell : Obligations.PlainLoadsWriteTheCell := by
  intro s dr base off
  obtain ⟨hld, hldr, hldi⟩ := loadsWriteWhatMemReadAnswers s dr base off
  refine ⟨fun h => ?_, fun h => ?_, fun hptr hdata => ?_⟩
  · rwa [memRead_plain h] at hld
  · rwa [memRead_plain h] at hldr
  · simpa only [memRead_plain hptr, memRead_plain hdata] using hldi

/-- Settles O44: LEA's result is the sum of the numbers modulo 2^16. -/
theorem leaWritesTheAddress : Obligations.LeaWritesTheAddress := by
  intro s dr off
  rw [← BitVec.add_def]
  exact exec_resultIn (exec_lea s dr off)

/-! ### ST, STR, STI (R124 to R126) -/

/-- Settles O45: each store is one MemWrite, at the sum of the numbers modulo 2^16. -/
theorem storesWriteTheirCell : Obligations.StoresWriteTheirCell := by
  intro s sr base off hm
  rw [← BitVec.add_def, ← BitVec.add_def]
  exact ⟨⟨_, exec_st s sr off, memWriteStoresOneCell _ _ s hm⟩, ⟨_, exec_str s sr base off, memWriteStoresOneCell _ _ s hm⟩⟩

/-- Settles O46: after the pointer's read the memory is still canonical and the source register the same, so the store is
one MemWrite there; a plain read leaves the state as it was. -/
theorem stiStoresThroughThePointer : Obligations.StiStoresThroughThePointer := by
  intro s sr off hm
  have hstored := memWriteStoresOneCell (memRead (s.pc + off) s).1 (s.reg sr) _ (memRead_wf (s.pc + off) s hm)
  have hexec := exec_sti s sr off
  rw [memRead_reg] at hexec
  refine ⟨_, hexec, hstored, fun hplain => ?_⟩
  rw [memRead_plain hplain] at hstored ⊢
  exact hstored

end Sys2Proof.Machine
end

section
/-! The services of TRAP one by one, each as the one state it completes in over the link (43_trap.md R140 to R143, R145,
R147, R148). -/

namespace Sys2Proof.Machine

/-! ### Every vector (R140, R141) -/

theorem SameRegsBut.mono {ds ds' : List Reg} {s t : State} (h : SameRegsBut ds s t) (hsub : ds ⊆ ds') :
    SameRegsBut ds' s t :=
  fun r hr => h r fun hmem => hr (hsub hmem)

/-- Settles O48: the tables of the registers, flags, PC, run state and cells, read at a TRAP. -/
theorem trapLinksAndChangesOnlyWhatItsServiceNames : Obligations.TrapLinksAndChangesOnlyWhatItsServiceNames := by
  intro v s t hm h
  have hregs := registersWrittenAreThoseOfR22 _ _ _ h
  have hcells := exec_trap_sameCellsBut hm h
  simp only [readsMemory, Bool.or_eq_true, beq_iff_eq] at hcells
  refine ⟨exec_trap_reg_r7 h, pcAfterIsThatOfR25 _ _ _ h, hregs.mono ?_, fun h20 h23 => ?_, fun h25 => ?_, hcells⟩
  · rw [regsWritten]
    split <;> simp
  · have hinput : ¬ (v = 0x20 ∨ v = 0x23) := not_or.2 ⟨h20, h23⟩
    refine ⟨hregs .r0 ?_, exec_cond_of_flagSource_none h (if_neg hinput)⟩
    rw [regsWritten, if_neg hinput]
    decide
  · rw [exec_run h, if_neg (by simpa using h25)]

/-! ### GETC and IN (R142, R145) -/

theorem condOf_zext_ne_N (c : Byte) : condOf (zext c) ≠ Cond.N := by
  have hsign : (zext c).msb = false := by
    rw [BitVec.msb_eq_getLsbD_last, zext_getLsbD, BitVec.getLsbD_of_ge c _ (by decide)]
  rw [condOf, hsign]
  split <;> decide

/-- A service that completes with the link, its console transactions and a character in R0 has this result and frame. -/
theorem exec_trap_reads_character {v : BitVec 8} {s : State} {c : Byte} {k : Console}
    (h : exec (.trap v) s = .next (writeResult .r0 (zext c) ((link s).setConsole k))) (hin : ConsumedInput 1 s.console k) :
    ∃ t, exec (.trap v) s = .next t ∧ t.reg .r0 = zext c ∧ FlagsOf (zext c) t.cond ∧ t.cond ≠ Cond.N ∧
      t.reg .r7 = s.pc ∧ SameRegsBut [.r0, .r7] s t ∧ SameCellsBut [] s t ∧ t.pc = s.pc ∧ t.run = s.run ∧
      ConsumedInput 1 s.console t.console ∧ t.console.output = k.output := by
  refine ⟨_, h, writeResult_reg_same _ _ _, ?_, ?_, exec_trap_reg_r7 h, fun r hr => ?_, fun _ _ => rfl, rfl, rfl, hin, rfl⟩
  · rw [writeResult_cond]
    exact condOf_flagsOf _
  · rw [writeResult_cond]
    exact condOf_zext_ne_N c
  · rw [writeResult_reg_other _ _ (List.ne_of_not_mem_cons hr), State.setConsole_reg,
      link_sameRegsBut (.head _) s r (List.not_mem_of_not_mem_cons hr)]

/-- Settles O49: GETC is the link, then the ConRead that answers the first character. -/
theorem getcReadsTheOldestCharacter : Obligations.GetcReadsTheOldestCharacter := by
  intro s c hc
  obtain ⟨k, hread, hin, hout⟩ := conRead_some (s := link s) hc
  have hexec : exec (.trap 0x20) s = .next (writeResult .r0 (zext c) ((link s).setConsole k)) := by
    rw [exec_trap, trapService_getc]
    exact trapGetc_next_iff.2 ⟨c, _, hread, rfl⟩
  rw [link_console] at hout
  rw [← hout]
  exact exec_trap_reads_character hexec hin

/-- Settles O50: IN is the link, the prompt, the ConRead that answers the first character, and its echo. -/
theorem inPromptsReadsAndEchoes : Obligations.InPromptsReadsAndEchoes := by
  intro s c hc
  obtain ⟨k, hread, hin, hout⟩ := conRead_some (s := conWrite Config.inPrompt (link s)) hc
  have hexec : exec (.trap 0x23) s =
      .next (writeResult .r0 (zext c) ((link s).setConsole { k with output := k.output ++ [c] })) := by
    rw [exec_trap, trapService_in]
    exact trapIn_next_iff.2 ⟨c, _, hread, rfl⟩
  rw [conWrite_output, link_console] at hout
  rw [← hout]
  exact exec_trap_reads_character hexec hin

/-! ### OUT, HALT and the vectors without a service (R143, R147, R148) -/

/-- A service that completes with the link and output alone has this frame. -/
theorem exec_trap_only_writes {v : BitVec 8} {s : State} {w : List Byte}
    (h : exec (.trap v) s = .next (conWrite w (link s))) :
    ∃ t, exec (.trap v) s = .next t ∧ t.console = { s.console with output := s.console.output ++ w } ∧
      t.reg .r7 = s.pc ∧ SameRegsBut [.r7] s t ∧ SameCellsBut [] s t ∧ t.cond = s.cond ∧ t.pc = s.pc ∧ t.run = s.run :=
  ⟨_, h, conWrite_console _ _, link_reg_r7 s, link_sameRegsBut (.head _) s, fun _ _ => rfl, rfl, rfl, rfl⟩

theorem lowByte_eq_ofNat (v : Word) : lowByte v = BitVec.ofNat 8 v.toNat := rfl

/-- Settles O52: the link leaves R0 as it is. -/
theorem outWritesTheLowByte : Obligations.OutWritesTheLowByte := by
  intro s
  rw [← lowByte_eq_ofNat]
  exact exec_trap_only_writes ((exec_trap 0x21 s).trans (trapService_out (link s)))

/-- Settles O55: the link, the announcement and HALTED, from which no step goes on. -/
theorem haltAnnouncesAndStops : Obligations.HaltAnnouncesAndStops := fun s =>
  ⟨_, (exec_trap 0x25 s).trans (trapService_halt (link s)), rfl, rfl, link_reg_r7 s, rfl, link_sameRegsBut (.head _) s,
    fun _ _ => rfl, rfl, step_ne_next_of_halted rfl⟩

/-- Settles O56: a vector out of the range is none of the six services'. -/
theorem otherVectorsOnlyLink : Obligations.OtherVectorsOnlyLink := by
  intro v s hv
  have hother : v ∉ [0x20, 0x21, 0x22, 0x23, 0x24, 0x25] := by
    intro hmem
    simp only [List.mem_cons, List.not_mem_nil, or_false] at hmem
    rcases hmem with rfl | rfl | rfl | rfl | rfl | rfl <;> simp at hv
  exact ⟨link s, (exec_trap v s).trans (trapService_other hother _), link_reg_r7 s, link_sameRegsBut (.head _) s,
    fun _ _ => rfl, rfl, rfl, rfl, rfl⟩

end Sys2Proof.Machine
end

section
/-! PUTS and PUTSP: the loop ends at the first of `stringRead`'s reads that answers zero, having written what the reads before
it answer, and hangs where none does (43_trap.md R144, R146). -/

namespace Sys2Proof.Machine

/-! ### Reads and writes commute -/

theorem conWrite_conWrite (w w' : List Byte) (s : State) : conWrite w' (conWrite w s) = conWrite (w ++ w') s := by
  simp [conWrite, State.setConsole]

/-- A delivery of input does not look at the output. -/
theorem Console.arrive_setOutput (c : Console) (out : List Byte) :
    ({ c with output := out } : Console).arrive = { c.arrive with output := out } := by
  cases ha : c.arrivals with
  | cons batch later => simp [Console.arrive, ha]
  | nil => cases he : c.endless <;> simp [Console.arrive, ha, he]

theorem keyboardPoll_conWrite (w : List Byte) (s : State) :
    keyboardPoll (conWrite w s) = conWrite w (keyboardPoll s) := by
  have harrive : (conWrite w s).console.arrive =
      { s.console.arrive with output := s.console.arrive.output ++ w } := by
    rw [conWrite_console, Console.arrive_setOutput, Console.arrive_output]
  rw [keyboardPoll_eq, keyboardPoll_eq, harrive]
  rcases s.console.arrive with ⟨_ | ⟨b, rest⟩, arrivals, endless, output⟩ <;> rfl

theorem memRead_conWrite (a : Word) (w : List Byte) (s : State) :
    memRead a (conWrite w s) = ((memRead a s).1, conWrite w (memRead a s).2) := by
  by_cases h : a = kbsrAddr
  · rw [h, memRead_kbsr, memRead_kbsr, keyboardPoll_conWrite]
    rfl
  · rw [memRead_plain h, memRead_plain h]
    rfl

theorem memRead_link (a : Word) (s : State) : memRead a (link s) = ((memRead a s).1, link (memRead a s).2) := by
  rw [link, memRead_setReg, link, memRead_pc]

/-! ### The reads of a string -/

theorem stringRead_succ (n : Nat) (a : Word) (s : State) :
    stringRead (n + 1) a s = stringRead n (a + 1) (memRead a s).2 := rfl

theorem stringRead_conWrite (n : Nat) (a : Word) (w : List Byte) (s : State) :
    stringRead n a (conWrite w s) = ((stringRead n a s).1, conWrite w (stringRead n a s).2) := by
  induction n generalizing a s with
  | zero => exact memRead_conWrite a w s
  | succ n ih => rw [stringRead_succ, memRead_conWrite, ih, stringRead_succ]

theorem stringRead_link (n : Nat) (a : Word) (s : State) :
    stringRead n a (link s) = ((stringRead n a s).1, link (stringRead n a s).2) := by
  induction n generalizing a s with
  | zero => exact memRead_link a s
  | succ n ih => rw [stringRead_succ, memRead_link, ih, stringRead_succ]

theorem OnlyIO.stringRead (n : Nat) (a : Word) (s : State) : OnlyIO [] s (stringRead n a s).2 := by
  induction n generalizing a s with
  | zero => exact .memRead a s
  | succ n ih => exact (OnlyIO.memRead a s).trans (ih (a + 1) _)

/-- A string that does not pass KBSR reads its cells and changes nothing; the pointer wraps (R60). -/
theorem stringRead_plain {n : Nat} {a : Word} {s : State} (h : ∀ k, k ≤ n → a + BitVec.ofNat 16 k ≠ kbsrAddr) :
    stringRead n a s = (s.cell (a + BitVec.ofNat 16 n), s) := by
  induction n generalizing a with
  | zero =>
    have ha : a + BitVec.ofNat 16 0 = a := BitVec.add_zero a
    rw [ha]
    exact memRead_plain (ha ▸ h 0 (Nat.le_refl 0)) s
  | succ n ih =>
    have hnext (k : Nat) : a + 1 + BitVec.ofNat 16 k = a + BitVec.ofNat 16 (k + 1) := by
      rw [BitVec.add_assoc, BitVec.add_comm 1, BitVec.ofNat_add]
      rfl
    have ha : a ≠ kbsrAddr := BitVec.add_zero a ▸ h 0 (Nat.zero_le _)
    rw [stringRead_succ, memRead_plain ha, ih fun k hk => hnext k ▸ h (k + 1) (Nat.succ_le_succ hk), hnext]

/-! ### The loop by its reads -/

section Loop
variable {emit : Word → List Byte} {a : Word} {s : State} {n : Nat}

/-- The `n`-th read is the first that answers zero. -/
def FirstZeroRead (n : Nat) (a : Word) (s : State) : Prop :=
  (∀ k, k < n → (stringRead k a s).1 ≠ 0) ∧ (stringRead n a s).1 = 0

/-- The first zero read is still the first when a turn of the loop that read no zero is done. -/
theorem FirstZeroRead.turn (h : FirstZeroRead (n + 1) a s) :
    (memRead a s).1 ≠ 0 ∧ FirstZeroRead n (a + 1) (afterTurn emit a s) := by
  obtain ⟨hne, hzero⟩ := h
  refine ⟨hne 0 (Nat.succ_pos n), fun k hk => ?_, ?_⟩ <;> rw [afterTurn, stringRead_conWrite]
  · exact hne (k + 1) (Nat.succ_lt_succ hk)
  · exact hzero

/-- With cells enough the loop ends at the first zero read: it has written what the reads before it answered, and leaves the
state those reads left. -/
theorem stringLoop_of_firstZeroRead {fuel : Nat} (hfuel : n < fuel) (h : FirstZeroRead n a s) :
    stringLoop emit fuel a s =
      .next (conWrite ((List.range n).flatMap fun k => emit (stringRead k a s).1) (stringRead n a s).2) := by
  induction n generalizing fuel a s with
  | zero =>
    obtain ⟨fuel, rfl⟩ := Nat.exists_eq_add_one.2 hfuel
    have hzero : (memRead a s).1 = 0 := h.2
    rw [stringLoop_succ, if_pos hzero, List.range_zero, List.flatMap_nil, conWrite_nil]
    rfl
  | succ n ih =>
    obtain ⟨fuel, rfl⟩ := Nat.exists_eq_add_one.2 (Nat.zero_lt_of_lt hfuel)
    obtain ⟨hne, hrest⟩ := h.turn (emit := emit)
    rw [stringLoop_succ, if_neg hne]
    refine (ih (Nat.lt_of_succ_lt_succ hfuel) hrest).trans ?_
    simp only [afterTurn, stringRead_conWrite, conWrite_conWrite]
    rw [List.range_succ_eq_map, List.flatMap_cons, List.flatMap_map]
    rfl

/-- While no read answers zero, no bound is enough. -/
theorem stringLoop_hangs_of_nonzero_reads {fuel : Nat} (h : ∀ k, k < fuel → (stringRead k a s).1 ≠ 0) :
    stringLoop emit fuel a s = .fault .stringHang := by
  induction fuel generalizing a s with
  | zero => rfl
  | succ fuel ih =>
    have hne : (memRead a s).1 ≠ 0 := h 0 (Nat.succ_pos fuel)
    rw [stringLoop_succ, if_neg hne]
    refine ih fun k hk => ?_
    rw [stringRead_conWrite]
    exact h (k + 1) (Nat.succ_lt_succ hk)

/-- A zero read means that the loop ends, so the services' bound is enough. -/
theorem FirstZeroRead.stringLoop_ne_hang (hm : s.mem.wf = true) (h : FirstZeroRead n a s) :
    stringLoop emit (stringFuel s) a s ≠ .fault .stringHang := by
  intro hhang
  have hforever := stringLoop_hang_forever hm hhang (n + 1)
  rw [stringLoop_of_firstZeroRead (Nat.lt_succ_self n) h] at hforever
  cases hforever

/-- The first zero read is within the services' bound. -/
theorem FirstZeroRead.lt_stringFuel (hm : s.mem.wf = true) (h : FirstZeroRead n a s) : n < stringFuel s := by
  by_contra hlt
  exact h.stringLoop_ne_hang (emit := putsBytes) hm
    (stringLoop_hangs_of_nonzero_reads fun k hk => h.1 k (Nat.lt_of_lt_of_le hk (Nat.not_lt.1 hlt)))

/-- Where a read answers zero, one is the first. -/
theorem exists_firstZeroRead (h : ∃ n, (stringRead n a s).1 = 0) : ∃ n, FirstZeroRead n a s :=
  ⟨Nat.find h, fun _ hk => Nat.find_min h hk, Nat.find_spec h⟩

/-- The services' loop hangs exactly where no read answers zero. -/
theorem stringLoop_hang_iff (hm : s.mem.wf = true) :
    stringLoop emit (stringFuel s) a s = .fault .stringHang ↔ ∀ n, (stringRead n a s).1 ≠ 0 := by
  refine ⟨fun hhang n hzero => ?_, fun h => stringLoop_hangs_of_nonzero_reads fun k _ => h k⟩
  obtain ⟨m, hfirst⟩ := exists_firstZeroRead ⟨n, hzero⟩
  exact hfirst.stringLoop_ne_hang hm hhang

end Loop

/-! ### The services -/

/-- What the service of `v`, PUTS or PUTSP, writes for a cell (R144, R146). -/
def stringBytes (v : BitVec 8) (c : Word) : List Byte :=
  lowByte c :: if v = 0x22 ∨ highByte c = 0 then [] else [highByte c]

theorem stringBytes_puts : stringBytes 0x22 = putsBytes := by
  funext c
  rw [stringBytes, if_pos (.inl rfl), putsBytes]

theorem stringBytes_putsp : stringBytes 0x24 = putspBytes := by
  funext c
  rw [stringBytes, putspBytes]
  by_cases h : highByte c = 0
  · rw [if_pos (.inr h), if_pos h]
  · rw [if_neg (not_or.2 ⟨by decide, h⟩), if_neg h]

/-- PUTS and PUTSP are the link, then the loop from R0 on. -/
theorem exec_trap_string {v : BitVec 8} (hv : v = 0x22 ∨ v = 0x24) (s : State) :
    exec (.trap v) s = stringLoop (stringBytes v) (stringFuel (link s)) (s.reg .r0) (link s) := by
  rcases hv with rfl | rfl
  · rw [exec_trap, trapService_puts, stringBytes_puts, link_reg_other s (by decide)]
  · rw [exec_trap, trapService_putsp, stringBytes_putsp, link_reg_other s (by decide)]

theorem FirstZeroRead.link {n : Nat} {a : Word} {s : State} (h : FirstZeroRead n a s) :
    FirstZeroRead n a (link s) := by
  obtain ⟨hne, hzero⟩ := h
  refine ⟨fun k hk => ?_, ?_⟩ <;> rw [stringRead_link]
  · exact hne k hk
  · exact hzero

/-- A string service whose first zero read is within the bound completes there, its output and link over what the reads left. -/
theorem exec_trap_string_next {v : BitVec 8} (hv : v = 0x22 ∨ v = 0x24) {s : State} {n : Nat}
    (hfuel : n < stringFuel (link s)) (h : FirstZeroRead n (s.reg .r0) s) :
    exec (.trap v) s =
      .next (conWrite ((List.range n).flatMap fun k => stringBytes v (stringRead k (s.reg .r0) s).1)
        (link (stringRead n (s.reg .r0) s).2)) := by
  rw [exec_trap_string hv, stringLoop_of_firstZeroRead hfuel h.link]
  simp only [stringRead_link]

/-- The services' bound is more than once round the memory. -/
theorem lt_stringFuel_of_lt {n : Nat} (hn : n < 65536) (s : State) : n < stringFuel s := by
  unfold stringFuel
  omega

/-- Away from KBSR a string service only links and writes its cells' bytes. -/
theorem exec_trap_string_plain {v : BitVec 8} (hv : v = 0x22 ∨ v = 0x24) {s : State} {n : Nat} (hn : n < 65536)
    (hne : ∀ k, k < n → s.cell (s.reg .r0 + BitVec.ofNat 16 k) ≠ 0) (hzero : s.cell (s.reg .r0 + BitVec.ofNat 16 n) = 0)
    (haway : ∀ k, k ≤ n → s.reg .r0 + BitVec.ofNat 16 k ≠ kbsrAddr) :
    exec (.trap v) s =
      .next (conWrite ((List.range n).flatMap fun k => stringBytes v (s.cell (s.reg .r0 + BitVec.ofNat 16 k))) (link s)) := by
  have hread : ∀ k ≤ n, stringRead k (s.reg .r0) s = (s.cell (s.reg .r0 + BitVec.ofNat 16 k), s) :=
    fun k hk => stringRead_plain fun j hj => haway j (hj.trans hk)
  have hfirst : FirstZeroRead n (s.reg .r0) s :=
    ⟨fun k hk => by rw [hread k hk.le]; exact hne k hk, by rw [hread n le_rfl]; exact hzero⟩
  have hbytes : ((List.range n).flatMap fun k => stringBytes v (stringRead k (s.reg .r0) s).1) =
      (List.range n).flatMap fun k => stringBytes v (s.cell (s.reg .r0 + BitVec.ofNat 16 k)) :=
    List.flatMap_congr fun k hk => by rw [hread k (List.mem_range.1 hk).le]
  rw [exec_trap_string_next hv (lt_stringFuel_of_lt hn _) hfirst, hbytes, hread n le_rfl]

/-- Settles O53: PUTS away from KBSR, one byte a cell. -/
theorem putsWritesTheString : Obligations.PutsWritesTheString := by
  intro s n hn hne hzero haway
  have hexec := exec_trap_string_plain (.inl rfl) hn hne hzero haway
  rw [stringBytes_puts] at hexec
  rw [List.map_eq_flatMap]
  exact exec_trap_only_writes hexec

/-- Settles O54: PUTSP away from KBSR, one byte a cell or two. -/
theorem putspWritesThePackedString : Obligations.PutspWritesThePackedString := by
  intro s n hn hne hzero haway
  have hbytes (c : Word) : stringBytes 0x24 c = lowByte c :: if highByte c = 0 then [] else [highByte c] := by
    simp [stringBytes]
  have hexec := exec_trap_string_plain (.inr rfl) hn hne hzero haway
  simp only [hbytes] at hexec
  exact exec_trap_only_writes hexec

/-- Settles O57: the loop over the link hangs exactly where no read answers zero, and else ends at the first zero read. -/
theorem stringServicesEndExactlyAtAZeroCell : Obligations.StringServicesEndExactlyAtAZeroCell := by
  intro s v hm hv
  refine ⟨?_, fun n hne hzero => ?_⟩
  · rw [exec_trap_string hv, stringLoop_hang_iff (s := link s) hm]
    simp only [stringRead_link]
  · have hfirst : FirstZeroRead n (s.reg .r0) s := ⟨hne, hzero⟩
    have hexec := exec_trap_string_next hv (hfirst.link.lt_stringFuel hm) hfirst
    have hio := OnlyIO.stringRead n (s.reg .r0) s
    refine ⟨_, hexec, exec_trap_reg_r7 hexec, fun r hr => ?_, hio.cond, hio.pc, hio.run, rfl, ?_⟩
    · rw [conWrite_reg, link_sameRegsBut (.head _) _ r hr, hio.reg]
    · rw [conWrite_console, link_console, hio.output, List.append_nil]
      rfl

end Sys2Proof.Machine
end

section
/-! The reserved opcodes RTI and RES (44_reserved.md R160 to R162). -/

namespace Sys2Proof.Machine

/-- The opcode alone makes a word RTI: no operand bit is read (R160). -/
theorem decode_of_opcode_rti {w : Word} (h : field w 12 4 = Opcode.number .rti) : decode w = .rti := by
  rw [decode, h, Opcode.ofBits_number]

/-- The opcode alone makes a word RES: no operand bit is read (R161). -/
theorem decode_of_opcode_res {w : Word} (h : field w 12 4 = Opcode.number .res) : decode w = .res := by
  rw [decode, h, Opcode.ofBits_number]

/-- Settles O47: the fetched word decodes to RTI or RES, which leave the state after the fetch as it is. -/
theorem reservedOpcodesDoNothing : Obligations.ReservedOpcodesDoNothing := by
  refine fun s => ⟨exec_res s, exec_rti s, fun hrun hpc hop => ?_⟩
  rw [step_plain hrun hpc]
  obtain hrti | hres := hop
  · rw [decode_of_opcode_rti hrti, exec_rti]
  · rw [decode_of_opcode_res hres, exec_res]

end Sys2Proof.Machine
end

section
/-! Which instructions complete: all of them, but for GETC and IN without input and for PUTS and PUTSP over a string without an
end (60_exceptions.md R170; 70_reset_and_hazards.md R200). -/

namespace Sys2Proof.Machine

/-! ### PUTS and PUTSP -/

/-- A string service's loop meets an end within its bound, or reads nonzero cells for ever, and that takes a character at
every one of the repeating draws. -/
theorem exec_trap_string_completes_or_hangs {v : BitVec 8} (hv : v = 0x22 ∨ v = 0x24) {s : State} (hm : s.mem.wf = true) :
    (∃ t, exec (.trap v) s = .next t) ∨
      (s.console.endless ≠ [] ∧ none ∉ s.console.endless ∧ (∀ n, (stringRead n (s.reg .r0) s).1 ≠ 0) ∧
        exec (.trap v) s = .fault .stringHang) := by
  have hexec := exec_trap_string hv s
  rcases decided_by_stringFuel (stringBytes v) (s.reg .r0) (link s) hm with ⟨t, hends⟩ | ⟨hhangs, hendless, hdraws⟩
  · exact .inl ⟨t, hexec.trans hends⟩
  · obtain ⟨hiff, -⟩ := stringServicesEndExactlyAtAZeroCell s v hm hv
    have hhang := hexec.trans (hhangs _)
    exact .inr ⟨hendless, hdraws, hiff.1 hhang, hhang⟩

/-- Settles O58: with such input and memory nothing can end the loop; a hang needs repeating draws without an empty one. -/
theorem stringsHangOnlyOnEndlessInput : Obligations.StringsHangOnlyOnEndlessInput := by
  intro s v hm hv
  refine ⟨fun hbatches hendless hdraws hpending hcells => ?_, fun hdry => ?_⟩
  · have hunending : Unending (s.reg .r0) (link s) :=
      { wf := hm
        cells := fun a ha _ => hcells a ha
        kbdr := .inl (hcells kbdrAddr (by decide))
        through := hbatches
        endless := hendless
        draws := hdraws
        chars := hpending }
    exact (exec_trap_string hv s).trans (hunending.hangs _ _)
  · exact (exec_trap_string_completes_or_hangs hv hm).resolve_right fun ⟨hendless, hdraws, _⟩ =>
      hdry.elim hendless hdraws

/-! ### Every instruction -/

/-- GETC and IN complete with the first character of the input, or are stuck where there is none. -/
theorem exec_trap_input_completes_or_blocks {v : BitVec 8} (hv : v = 0x20 ∨ v = 0x23) (s : State) :
    (∃ t, exec (.trap v) s = .next t) ∨
      (s.console.upcoming 0 = none ∧ ∃ b, exec (.trap v) s = .fault (.stuckAwaitingInput b)) := by
  cases hinput : s.console.upcoming 0 with
  | none =>
    obtain ⟨⟨b, hgetc, -⟩, b', hin, -⟩ := getcAndInBlockWithoutInput s hinput
    rcases hv with rfl | rfl
    · exact .inr ⟨rfl, b, hgetc⟩
    · exact .inr ⟨rfl, b', hin⟩
  | some c =>
    rcases hv with rfl | rfl
    · obtain ⟨t, hgetc, -⟩ := getcReadsTheOldestCharacter s c hinput
      exact .inl ⟨t, hgetc⟩
    · obtain ⟨t, hin, -⟩ := inPromptsReadsAndEchoes s c hinput
      exact .inl ⟨t, hin⟩

/-- A TRAP completes where its service neither waits for a character nor reads a string (R143, R147, R148). -/
theorem exec_trap_completes {v : BitVec 8} (hinput : ¬ (v = 0x20 ∨ v = 0x23)) (hstring : ¬ (v = 0x22 ∨ v = 0x24))
    (s : State) : ∃ t, exec (.trap v) s = .next t := by
  simp only [exec_trap]
  rcases vector_cases v with rfl | rfl | rfl | rfl | rfl | rfl | hother
  · exact absurd (.inl rfl) hinput
  · exact ⟨_, trapService_out _⟩
  · exact absurd (.inl rfl) hstring
  · exact absurd (.inr rfl) hinput
  · exact absurd (.inr rfl) hstring
  · exact ⟨_, trapService_halt _⟩
  · exact ⟨_, trapService_other hother _⟩

/-- An instruction other than TRAP completes in every state. -/
theorem exec_completes_of_ne_trap {i : Instr} (h : ∀ v, i ≠ .trap v) (s : State) : ∃ t, exec i s = .next t := by
  cases i with
  | trap v => exact absurd rfl (h v)
  | br | jmp | jsr | jsrr | addReg | addImm | andReg | andImm | not | lea | ld | ldr | ldi | st | str | sti | rti | res =>
    exact ⟨_, rfl⟩

/-- Settles O20: by the service of a TRAP, since nothing else can fail to complete. -/
theorem everyInstructionCompletesUnlessBlocked : Obligations.EveryInstructionCompletesUnlessBlocked := by
  intro i s hm
  by_cases htrap : ∃ v, i = .trap v
  · obtain ⟨v, rfl⟩ := htrap
    simp only [Instr.trap.injEq]
    by_cases hinput : v = 0x20 ∨ v = 0x23
    · exact (exec_trap_input_completes_or_blocks hinput s).imp_right fun hblocks => .inl ⟨hinput, hblocks⟩
    by_cases hstring : v = 0x22 ∨ v = 0x24
    · exact (exec_trap_string_completes_or_hangs hstring hm).imp_right fun hhangs => .inr ⟨hstring, hhangs⟩
    · exact .inl (exec_trap_completes hinput hstring s)
  · exact .inl (exec_completes_of_ne_trap (fun v hv => htrap ⟨v, hv⟩) s)

end Sys2Proof.Machine
end

section
/-! The state before the first step, what images put into memory, and how a step can end
(70_reset_and_hazards.md R190, R195, R196, R200). -/

namespace Sys2Proof.Machine

/-! ### The state at reset (R190) -/

/-- Settles O8: each field as R190 gives it; the zeros and the empty console of `State.reset` are one choice. -/
theorem resetStateOfEveryInit : Obligations.ResetStateOfEveryInit :=
  ⟨fun _ _ _ => ⟨rfl, rfl, rfl, fun _ => rfl, fun _ => rfl, rfl⟩, _, _, _, rfl⟩

theorem State.resetWith_inv (g : RegFile) {m : Memory} (hm : m.wf = true) (host : Console) :
    (State.resetWith g m host).inv = true :=
  (State.inv_iff _).2 ⟨hm, show oneHot Cond.Z = true by decide⟩

/-- Settles O9: COND is Z at reset, and the empty memory is canonical. -/
theorem invariantAtReset : Obligations.InvariantAtReset :=
  ⟨State.resetWith_inv _ Memory.wf_nil _, fun g _ host hm => State.resetWith_inv g hm host⟩

/-! ### The words of an image in memory (R195) -/

/-- The bytes of an image's words, origin first: each word's high byte, then its low byte. -/
def imageBytes (ws : List Word) : List Byte := ws.flatMap fun w => [highByte w, lowByte w]

theorem highByte_append_lowByte (w : Word) : highByte w ++ lowByte w = w := append_extract (m := 8) (k := 8) w

theorem imageWords_imageBytes (ws : List Word) : imageWords (imageBytes ws) = some ws := by
  induction ws with
  | nil => rfl
  | cons w ws ih =>
    change (imageWords (imageBytes ws)).map ((highByte w ++ lowByte w) :: ·) = some (w :: ws)
    rw [ih, highByte_append_lowByte, Option.map_some]

theorem loadImage_imageBytes (overflow : Config.LoadOverflow) (m : Memory) (origin : Word) (ws : List Word) :
    loadImage overflow m (imageBytes (origin :: ws)) = placeWords overflow origin.toNat ws m := by
  rw [loadImage, imageWords_imageBytes]

/-- `m'` is the canonical memory that holds `ws` from address `a` on and is `m` elsewhere. -/
structure Placed (a : Nat) (ws : List Word) (m m' : Memory) : Prop where
  wf : m'.wf = true
  words : ∀ k (hk : k < ws.length), m'.read (a + k) = ws[k]
  others : ∀ b, b < a ∨ a + ws.length ≤ b → m'.read b = m.read b

theorem Placed.nil (a : Nat) {m : Memory} (hm : m.wf = true) : Placed a [] m m where
  wf := hm
  words _ hk := absurd hk (Nat.not_lt_zero _)
  others _ _ := rfl

/-- The first word is stored, and the rest are placed after it, which leaves it as it is. -/
theorem Placed.cons {a : Nat} {w : Word} {ws : List Word} {m m' : Memory} (hm : m.wf = true)
    (h : Placed (a + 1) ws (m.write a w) m') : Placed a (w :: ws) m m' where
  wf := h.wf
  words k hk := by
    cases k with
    | zero => exact (h.others a (.inl (Nat.lt_succ_self a))).trans ((Memory.read_write hm).trans (if_pos rfl))
    | succ k =>
      have haddr : a + (k + 1) = a + 1 + k := by omega
      exact (congrArg (Memory.read m') haddr).trans (h.words k (Nat.lt_of_succ_lt_succ hk))
  others b hb := by
    rw [List.length_cons] at hb
    rw [h.others b (by omega), Memory.read_write hm, if_neg (by omega)]

/-- Words that fit below 65536 are placed, whatever LOAD_OVERFLOW is. -/
theorem placeWords_of_fits (overflow : Config.LoadOverflow) {a : Nat} {ws : List Word} {m : Memory} (hm : m.wf = true)
    (hfits : a + ws.length ≤ 65536) : ∃ m', placeWords overflow a ws m = some m' ∧ Placed a ws m m' := by
  induction ws generalizing a m with
  | nil => exact ⟨m, rfl, .nil a hm⟩
  | cons w ws ih =>
    rw [List.length_cons] at hfits
    have ha : a < 65536 := by omega
    obtain ⟨m', hplace, hplaced⟩ := ih (a := a + 1) (Memory.wf_write (v := w) ha hm) (by omega)
    exact ⟨m', (if_pos ha).trans hplace, hplaced.cons hm⟩

/-- Settles O12: the bytes read back as the words, and these are placed from the origin on. -/
theorem loadedImageReadsBack : Obligations.LoadedImageReadsBack := by
  intro overflow m origin ws hm hfits
  obtain ⟨m', hplace, hplaced⟩ := placeWords_of_fits overflow hm hfits
  exact ⟨m', (loadImage_imageBytes overflow m origin ws).trans hplace, hplaced.wf, hplaced.words, hplaced.others⟩

/-! ### No start without every image (R196) -/

theorem loadImages_append {overflow : Config.LoadOverflow} {before m : Memory} {done : List (List Byte)}
    (hdone : loadImages overflow before done = some m) (rest : List (List Byte)) :
    loadImages overflow before (done ++ rest) = loadImages overflow m rest := by
  induction done generalizing before with
  | nil => rw [Option.some.inj hdone, List.nil_append]
  | cons file done ih =>
    rw [List.cons_append]
    rw [loadImages] at hdone ⊢
    cases hfile : loadImage overflow before file with
    | none => simp [hfile] at hdone
    | some m1 => exact ih (by simpa [hfile] using hdone)

theorem loadImages_cons_none {overflow : Config.LoadOverflow} {m : Memory} {file : List Byte}
    (hfile : loadImage overflow m file = none) (rest : List (List Byte)) :
    loadImages overflow m (file :: rest) = none := by
  rw [loadImages, hfile]

theorem State.boot_none_of_loadImages {overflow : Config.LoadOverflow} {before : Memory} {images : List (List Byte)}
    (h : loadImages overflow before images = none) (g : RegFile) (host : Console) :
    State.boot overflow g before images host = none := by
  cases images with
  | nil => rfl
  | cons file files => rw [State.boot, h, Option.map_none]

/-- Settles O13: loading goes through the images before the failing one and ends there. -/
theorem noStartWithoutImages : Obligations.NoStartWithoutImages :=
  fun _ g _ host => ⟨rfl, fun _ rest _ _ hdone hfile =>
    State.boot_none_of_loadImages ((loadImages_append hdone _).trans (loadImages_cons_none hfile rest)) g host⟩

/-! ### The ends of a step (R200) -/

theorem fetch_wf {s : State} (hm : s.mem.wf = true) : (fetch s).2.mem.wf = true := by
  rw [fetch_state]
  exact memRead_wf _ s hm

/-- Settles O59: a HALTED core has no step, and a RUNNING one's step ends as the fetched instruction does after the fetch. -/
theorem stepEndsAsR200Names : Obligations.StepEndsAsR200Names := by
  intro s hm
  cases hrun : s.run with
  | halted => exact .inr (.inl ⟨rfl, step_of_halted hrun⟩)
  | running =>
    rw [step_of_running hrun]
    rcases everyInstructionCompletesUnlessBlocked (decode (fetch s).1) (fetch s).2 (fetch_wf hm) with
      hnext | hstuck | ⟨hi, -, -, hreads, hhang⟩
    · exact .inl ⟨rfl, hnext⟩
    · exact .inr (.inr (.inl ⟨rfl, hstuck⟩))
    · exact .inr (.inr (.inr ⟨rfl, hi, hreads, hhang⟩))

end Sys2Proof.Machine
end
